-- ==== Sys2Proof/Word.lean ====
section
/-!
DEFINITION. The widths of the machine and the conversions between them: bytes, the nine-bit values of PC and of the
fault record, the index of a general register (spec/00_scope.md R4, R5, R6).
-/

namespace Sys2Proof

/-- Every register, memory cell and operand holds one unsigned byte (R7, R12, R27). -/
abbrev Byte := BitVec 8

/-- PC and the two nine-bit fields of the fault record (R18, R24). -/
abbrev Word9 := BitVec 9

/-- The index of a general register, 0 to 7 (R12). -/
abbrev RegIx := Fin 8

/-- `trunc_8` of R6: the value modulo 256. -/
def trunc8 (n : Nat) : Byte := BitVec.ofNat 8 n

/-- `zext_9` of R6: the same number in nine bits. -/
def zext9 (b : Byte) : Word9 := b.setWidth 9

end Sys2Proof
end

