-- ==== Sys2Proof/Config.lean ====
section
/-!
DEFINITION. The implementation parameters of spec/00_scope.md R4 that are plain numbers, the names of the sixteen
dispatched instructions, and the type of an opcode table. The table itself, a map from name to byte that the spec
takes from general knowledge (decision D1, log 1), is `Sys2Proof.opcodeTable` in Sys2Proof/Decode.lean.
The configuration has no free value: no rule of the spec needs one (log 24).
-/

namespace Sys2Proof

/-- `MEM_SIZE`, the number of memory cells (R4). -/
def Config.memSize : Nat := 256

/-- What every memory cell holds after reset (R26), and so what an address that the memory list does not name reads as. -/
def Config.memReset : Byte := 0x00

/-- `SP_INDEX`: register 7 is the stack pointer (R4, R13). -/
def Config.spIndex : RegIx := 7

/-- `SP_RESET` (R4, R26). -/
def Config.spReset : Byte := 0xF4

/-- `GPR_RESET`, the reset value of r0 to r6 (R4, R26; spec decision D3, log 2). -/
def Config.gprReset : Byte := 0x00

/-- `PC_RESET` (R4, R26; log 2). -/
def Config.pcReset : Word9 := 0

/-- `FL_RESET` (R4, R26; spec decision D3, log 2). -/
def Config.flReset : Byte := 0x00

/-- `IR_RESET` (R4, R26; spec decision D3, log 2). -/
def Config.irReset : Byte := 0x00

/-- `MAX_IMAGE_LEN` in bytes (R4, R55; spec decision D18, log 18). -/
def Config.maxImageLen : Nat := 256

/-- The names of the dispatched instructions, in the order of the table of R49. -/
inductive Op where
  | hlt | ldi | prn | add | mul | cmp | and | or | xor | push | pop | call | ret | jmp | jeq | jne
  deriving DecidableEq, Repr

/-- Every name once. -/
def Op.all : List Op :=
  [.hlt, .ldi, .prn, .add, .mul, .cmp, .and, .or, .xor, .push, .pop, .call, .ret, .jmp, .jeq, .jne]

/-- An assignment of opcode bytes to the instructions: the parameter `OPCODE_MAP` of R4. -/
abbrev OpcodeTable := Op → Byte

end Sys2Proof
end

