-- ==== Sys2Proof/Machine/State.lean ====
section
/-!
DEFINITION. The state of the core (spec/10_state.md R10 to R29), the reasons a step of the MODEL can stop, and the
state after reset (R26, spec/70_reset_and_hazards.md R125).
The core's own faults (spec/60_exceptions.md) are not reasons for the model to stop: a fault is a next state, halted,
with the fault record written (R116, log 6).
-/

namespace Sys2Proof.Machine

/-- The eight general registers (R12). -/
structure RegFile where
  r0 : Byte
  r1 : Byte
  r2 : Byte
  r3 : Byte
  r4 : Byte
  r5 : Byte
  r6 : Byte
  r7 : Byte
  deriving DecidableEq, Repr

/-- The running flag RUN (R23). -/
inductive RunState where
  | running
  | halted
  deriving DecidableEq, Repr

/-- The kinds of fault of spec/60_exceptions.md R106 (names and split: spec decision D13, log 14). -/
inductive FaultKind where
  /-- The fetched byte is in no row of the opcode table (R107). -/
  | unsupportedInstruction
  /-- The opcode byte or an operand byte lies above address 255 (R108). -/
  | boundsFetch
  /-- An operand byte used as a register index is above 7 (R109). -/
  | boundsRegister
  /-- A push with the stack pointer at 0 (R110). -/
  | boundsStackLow
  /-- A pop whose pointer to increment is 0xFF (R111). -/
  | boundsStackHigh
  /-- CALL with return address 256 (R112). -/
  | boundsReturnAddress
  /-- Raised by no rule (R113). -/
  | aluFault
  deriving DecidableEq, Repr

/-- The fault record (R24, R106): the kind, the address of the faulting instruction, the offending byte or address. -/
structure FaultRecord where
  kind : FaultKind
  pc : Word9
  info : Word9
  deriving DecidableEq, Repr

/-- Why a step of the model stops with a fault. -/
inductive Fault where
  /-- Raised by `step` alone, on a state whose running flag is HALTED: such a state has no step (R61, R69).
  Safe: the hardware takes no step either (log 5). -/
  | haltedHasNoStep
  deriving DecidableEq, Repr

/-- Why a step of the model is refused. -/
inductive Refusal where
  /-- Raised by an arm of `exec` whose instruction has no meaning yet; no arm raises it. Safe: nothing is claimed of
  the instruction. -/
  | notModelled (mnemonic : String)
  deriving DecidableEq, Repr

/-- Memory as a list of (address, byte) with strictly rising addresses below 256 and no entry equal to the reset byte;
an address without an entry reads as the reset byte (R27, log 19). The form is `Memory.wf` in Machine/Memory.lean. -/
abbrev Memory := List Host.Cell

/-- The architectural state (R10) and the output trace (R25). -/
structure State where
  /-- r0 to r7; r7 is the stack pointer (R12, R13). -/
  regs : RegFile
  /-- The address of the next instruction to fetch, 0 to 256 (R17, R18). -/
  pc : Word9
  /-- FL: bit 0 equal, bit 1 greater-than, bit 2 less-than (R20). -/
  fl : Byte
  /-- IR: the opcode byte most recently fetched (R22). -/
  ir : Byte
  /-- RUN (R23). -/
  run : RunState
  /-- FAULT (R24). -/
  fault : Option FaultRecord
  /-- Mem (R27). -/
  mem : Memory
  /-- OUT, oldest byte first (R25). -/
  out : List Byte
  deriving DecidableEq, Repr

/-- The machine after reset and before a program is loaded (R26, R125; log 2 for the values the source does not give). -/
def State.reset : State where
  regs :=
    { r0 := Config.gprReset, r1 := Config.gprReset, r2 := Config.gprReset, r3 := Config.gprReset,
      r4 := Config.gprReset, r5 := Config.gprReset, r6 := Config.gprReset, r7 := Config.spReset }
  pc := Config.pcReset
  fl := Config.flReset
  ir := Config.irReset
  run := .running
  fault := none
  mem := []
  out := []

end Sys2Proof.Machine
end

