-- ==== Sys2Proof/Machine/Flags.lean ====
section
/-!
DEFINITION. The flags register: its three bits and the one flag computation the core has, CMP's
(spec/10_state.md R20, R21, spec/42_alu.md R78).
-/

namespace Sys2Proof.Machine

/-- FL with E alone (R20, R78). -/
def flagsEqual : Byte := 0b00000001

/-- FL with G alone (R20, R78). -/
def flagsGreater : Byte := 0b00000010

/-- FL with L alone (R20, R78). -/
def flagsLess : Byte := 0b00000100

/-- All eight bits of FL after a compare of `va` with `vb`, unsigned (R78, R82). PRESUMED: that G means first greater
than second is spec decision D7 (log 8). -/
def compareFlags (va vb : Byte) : Byte :=
  if va.toNat = vb.toNat then flagsEqual
  else if va.toNat > vb.toNat then flagsGreater
  else flagsLess

/-- Bit 0, E: what JEQ and JNE test (R99, R100; spec decision D15, log 8). -/
def flagE (fl : Byte) : Bool := fl.getLsbD 0

/-- Bit 1, G (R20). -/
def flagG (fl : Byte) : Bool := fl.getLsbD 1

/-- Bit 2, L (R20). -/
def flagL (fl : Byte) : Bool := fl.getLsbD 2

end Sys2Proof.Machine
end

