-- ==== Sys2Proof/Machine/Memory.lean ====
section
/-!
DEFINITION. The memory array as a canonical list (spec/10_state.md R27, spec/20_memory.md R30 to R32, R38; log 19).
-/

namespace Sys2Proof.Machine

/-- What an address with no entry reads as: the reset contents of memory, zero (R26). -/
def Memory.unlisted : Byte := Config.memReset

/-- `Mem[a]` of R6: the byte at an address. -/
def Memory.read : Memory → Nat → Byte
  | [], _ => Memory.unlisted
  | (b, v) :: m, a => if a = b then v else Memory.read m a

/-- An entry put in front of entries with higher addresses, unless it would say what an unlisted address says. -/
def Memory.cons (a : Nat) (v : Byte) (m : Memory) : Memory :=
  if v = Memory.unlisted then m else (a, v) :: m

/-- `Mem[a] <- v`: every other cell keeps its byte (R32). -/
def Memory.write : Memory → Nat → Byte → Memory
  | [], a, v => Memory.cons a v []
  | (b, w) :: m, a, v =>
    if a < b then Memory.cons a v ((b, w) :: m)
    else if a = b then Memory.cons a v m
    else (b, w) :: Memory.write m a v

/-- Addresses rise strictly from `lo` on and stay in the address space, and no entry is redundant. -/
def Memory.wfFrom : Nat → Memory → Bool
  | _, [] => true
  | lo, (a, v) :: m =>
    decide (lo ≤ a) && decide (a < Config.memSize) && decide (v ≠ Memory.unlisted) && Memory.wfFrom (a + 1) m

/-- The canonical form: equal memories are equal lists (log 19). -/
def Memory.wf (m : Memory) : Bool := Memory.wfFrom 0 m

/-- The checked read `MemRead(addr, 1)` of R31: nothing for an address outside the address space. -/
def Memory.readChecked (m : Memory) (a : Nat) : Option Byte :=
  if a < Config.memSize then some (m.read a) else none

/-- The checked write `MemWrite(addr, 1, v)` of R32: nothing for an address outside the address space. -/
def Memory.writeChecked (m : Memory) (a : Nat) (v : Byte) : Option Memory :=
  if a < Config.memSize then some (m.write a v) else none

/-- The bytes at `a`, `a + 1`, ... that exist, `n` of them at most. -/
def Memory.bytesFrom (m : Memory) : Nat → Nat → List Byte
  | _, 0 => []
  | a, n + 1 =>
    match m.readChecked a with
    | none => []
    | some b => b :: Memory.bytesFrom m (a + 1) n

end Sys2Proof.Machine
end

