-- ==== Sys2Proof/Machine/Ops.lean ====
section
/-!
DEFINITION. The named operations over registers, PC, memory, OUT, the stack pointer and the fault record that the
meanings share (spec/00_scope.md R6, spec/43_stack.md R90, R93, spec/60_exceptions.md R116).
-/

namespace Sys2Proof.Machine

/-- What executing an instruction answers. -/
abbrev Result := Host.Outcome State Fault Refusal

/-! ### Registers -/

/-- Read register `i` (R12: none is hardwired, none reads differently from what was written). -/
def RegFile.get (f : RegFile) (i : RegIx) : Byte :=
  match i with
  | 0 => f.r0
  | 1 => f.r1
  | 2 => f.r2
  | 3 => f.r3
  | 4 => f.r4
  | 5 => f.r5
  | 6 => f.r6
  | 7 => f.r7

/-- Write register `i`. -/
def RegFile.set (f : RegFile) (i : RegIx) (v : Byte) : RegFile :=
  match i with
  | 0 => { f with r0 := v }
  | 1 => { f with r1 := v }
  | 2 => { f with r2 := v }
  | 3 => { f with r3 := v }
  | 4 => { f with r4 := v }
  | 5 => { f with r5 := v }
  | 6 => { f with r6 := v }
  | 7 => { f with r7 := v }

/-- `x[i]` of R6. -/
def State.reg (s : State) (i : RegIx) : Byte := s.regs.get i

/-- `x[i] <- v` of R6. -/
def State.setReg (s : State) (i : RegIx) (v : Byte) : State := { s with regs := s.regs.set i v }

/-- The stack pointer is register 7 (R13, R90). -/
def State.sp (s : State) : Byte := s.reg Config.spIndex

/-- Write the stack pointer. -/
def State.setSp (s : State) (v : Byte) : State := s.setReg Config.spIndex v

/-! ### Program counter -/

/-- `PC <- pc0 + n`, the dispatcher's advance past an instruction of `n` bytes (R66; log 4). -/
def State.advance (s : State) (n : Nat) : State := { s with pc := s.pc + BitVec.ofNat 9 n }

/-- `PC <- zext_9(target)`, the control transfer of R95. -/
def State.jump (s : State) (target : Byte) : State := { s with pc := zext9 target }

/-! ### Memory at an address held in a byte, which is always in range (R35) -/

/-- `MemRead(a, 1)` for a byte address (R31). -/
def State.loadByte (s : State) (a : Byte) : Byte := s.mem.read a.toNat

/-- `MemWrite(a, 1, v)` for a byte address (R32). -/
def State.storeByte (s : State) (a v : Byte) : State := { s with mem := s.mem.write a.toNat v }

/-! ### Output, halting and faults -/

/-- `emit(v)`: append a byte to OUT (R25). -/
def State.emit (s : State) (v : Byte) : State := { s with out := s.out ++ [v] }

/-- `RUN <- HALTED` (R70). -/
def State.halt (s : State) : State := { s with run := .halted }

/-- `raise K(info)` of R116, the one way a fault is taken: RUN and FAULT are written and nothing else. The record's pc is
`pc0`, which PC still holds: every check of a rule comes before its writes (R65, R67; log 12). There is no return (R117). -/
def State.raise (s : State) (k : FaultKind) (info : Word9) : State :=
  { s with run := .halted, fault := some { kind := k, pc := s.pc, info := info } }

/-! ### The stack protocol -/

/-- The address a push stores to, the decremented stack pointer; none where it would leave 0..255 (R90, R93; spec
decision D8, log 9). -/
def State.pushAddr (s : State) : Option Byte := if s.sp = 0x00 then none else some (s.sp - 1)

/-- Begin a push: check the pointer, then decrement it, then go on with the address to store to (R91, R93, R96). -/
def withPush (s : State) (k : Byte → State → Result) : Result :=
  match s.pushAddr with
  | none => .next (s.raise .boundsStackLow (zext9 s.sp))
  | some a => k a (s.setSp a)

/-- End a pop: the pointer `t` to be incremented must not be 0xFF (R92, R93, R97; spec decision D8, log 9). The rest of
the pop goes on with the incremented pointer. -/
def withPopped (t : Byte) (s : State) (k : Byte → Result) : Result :=
  if t = 0xFF then .next (s.raise .boundsStackHigh (zext9 t)) else k (t + 1)

end Sys2Proof.Machine
end

