-- ==== Sys2Proof/Machine/Operands.lean ====
section
/-!
DEFINITION. The one checked operand form, the register index (spec/10_state.md R14, spec/30_encoding.md R48), and the
order in which two of them are checked (spec/60_exceptions.md R115). The other form, LDI's immediate, is the byte itself.
-/

namespace Sys2Proof.Machine

/-- `RegIdx(b)` of R14: legal exactly for 0 to 7, the byte is not masked. -/
def regIdx (b : Byte) : Option RegIx := if h : b.toNat < 8 then some ⟨b.toNat, h⟩ else none

/-- Go on with the register that `b` names, or raise BOUNDS_REGISTER(b) (R14, R109). -/
def withReg (b : Byte) (s : State) (k : RegIx → Result) : Result :=
  match regIdx b with
  | some r => k r
  | none => .next (s.raise .boundsRegister (zext9 b))

/-- Two register operands, the first checked first (R109, R115; spec decision D12, log 13). -/
def withRegs (a b : Byte) (s : State) (k : RegIx → RegIx → Result) : Result :=
  withReg a s fun ra => withReg b s fun rb => k ra rb

end Sys2Proof.Machine
end

