-- ==== Sys2Proof/Machine/Alu.lean ====
section
/-!
DEFINITION. The ALU and the six instructions it executes (spec/42_alu.md R75 to R85).
-/

namespace Sys2Proof.Machine

/-- The operation kinds the hardware has (R75, R84). -/
inductive AluKind where
  | add | mul | cmp | and | or | xor
  deriving DecidableEq, Repr

/-- What the ALU returns: a result, or for a compare a flag update (R75). -/
inductive AluOut where
  | result (v : Byte)
  | flags (f : Byte)
  deriving DecidableEq, Repr

/-- The pure operation on two register values (R75, R82). -/
def alu (k : AluKind) (va vb : Byte) : AluOut :=
  match k with
  | .add => .result (trunc8 (va.toNat + vb.toNat))
  | .mul => .result (trunc8 (va.toNat * vb.toNat))
  | .cmp => .flags (compareFlags va vb)
  | .and => .result (va &&& vb)
  | .or => .result (va ||| vb)
  | .xor => .result (va ^^^ vb)

/-- Write what the ALU returned: a result to the first operand's register, flags to all of FL (R75, R83). -/
def State.putAlu (s : State) (ra : RegIx) : AluOut → State
  | .result v => s.setReg ra v
  | .flags f => { s with fl := f }

/-- The common form of the six: check both indices, read both values, operate, write, advance (R75 and section 2). -/
def aluInstr (k : AluKind) (a b : Byte) (s : State) : Result :=
  withRegs a b s fun ra rb => .next ((s.putAlu ra (alu k (s.reg ra) (s.reg rb))).advance 3)

/-- ADD a, b (R76). -/
def execAdd (a b : Byte) (s : State) : Result := aluInstr .add a b s

/-- MUL a, b (R77). -/
def execMul (a b : Byte) (s : State) : Result := aluInstr .mul a b s

/-- CMP a, b (R78). -/
def execCmp (a b : Byte) (s : State) : Result := aluInstr .cmp a b s

/-- AND a, b (R79; dispatched by spec decision D4, log 17). -/
def execAnd (a b : Byte) (s : State) : Result := aluInstr .and a b s

/-- OR a, b (R80; log 17). -/
def execOr (a b : Byte) (s : State) : Result := aluInstr .or a b s

/-- XOR a, b (R81; log 17). -/
def execXor (a b : Byte) (s : State) : Result := aluInstr .xor a b s

end Sys2Proof.Machine
end

