-- ==== Sys2Proof/Machine/Control.lean ====
section
/-!
DEFINITION. CALL, RET, JMP, JEQ and JNE (spec/44_control.md R95 to R101). Each writes PC on every path that does not
fault; the dispatcher does not advance it (spec/40_step_cycle.md R66).
-/

namespace Sys2Proof.Machine

/-- CALL's return address `pc0 + 2`, an unbounded number (R96). -/
def returnAddr (s : State) : Nat := s.pc.toNat + 2

/-- CALL r (R96): the return address must be an address (spec decision D9, log 10); the target is read after the
pointer was decremented (spec decision D10, log 11). -/
def execCall (r : Byte) (s : State) : Result :=
  withReg r s fun x =>
    if returnAddr s > 255 then .next (s.raise .boundsReturnAddress (BitVec.ofNat 9 (returnAddr s)))
    else withPush s fun a t => .next ((t.storeByte a (trunc8 (returnAddr s))).jump (t.reg x))

/-- RET (R97). -/
def execRet (s : State) : Result :=
  withPopped s.sp s fun sp' => .next ((s.setSp sp').jump (s.loadByte s.sp))

/-- JMP r (R98). -/
def execJmp (r : Byte) (s : State) : Result := withReg r s fun x => .next (s.jump (s.reg x))

/-- A conditional jump: the index is checked whether or not the jump is taken (spec decision D14, log 15); not taken, PC
steps over the two bytes (R99, R100). -/
def jumpIf (taken : Bool) (r : Byte) (s : State) : Result :=
  withReg r s fun x => .next (if taken then s.jump (s.reg x) else s.advance 2)

/-- JEQ r (R99). -/
def execJeq (r : Byte) (s : State) : Result := jumpIf (flagE s.fl) r s

/-- JNE r (R100). -/
def execJne (r : Byte) (s : State) : Result := jumpIf (!flagE s.fl) r s

end Sys2Proof.Machine
end

