-- ==== Sys2Proof/Machine/Stack.lean ====
section
/-!
DEFINITION. PUSH and POP (spec/43_stack.md R90 to R94). Where the operand is register 7 the effects happen in the order
the spec lists them (spec decision D10, log 11).
-/

namespace Sys2Proof.Machine

/-- PUSH r (R91): the register is read after the pointer was decremented. -/
def execPush (r : Byte) (s : State) : Result :=
  withReg r s fun x => withPush s fun a t => .next ((t.storeByte a (t.reg x)).advance 2)

/-- The pointer that POP increments: the popped byte itself where POP loads register 7 (R92). -/
def popPointer (x : RegIx) (s : State) : Byte := if x = Config.spIndex then s.loadByte s.sp else s.sp

/-- POP r (R92): the byte is loaded into the register, then the pointer is incremented. -/
def execPop (r : Byte) (s : State) : Result :=
  withReg r s fun x => withPopped (popPointer x s) s fun sp' =>
    .next (((s.setReg x (s.loadByte s.sp)).setSp sp').advance 2)

end Sys2Proof.Machine
end

