-- ==== Sys2Proof/Machine/System.lean ====
section
/-!
DEFINITION. HLT, LDI and PRN (spec/41_system_data.md R70 to R73). Each meaning is the instruction's rule followed by
the dispatcher's advance of R66 (log 4).
-/

namespace Sys2Proof.Machine

/-- HLT (R70): RUN <- HALTED, and PC still advances by one. -/
def execHlt (s : State) : Result := .next (s.halt.advance 1)

/-- LDI r, imm (R71). -/
def execLdi (r imm : Byte) (s : State) : Result :=
  withReg r s fun x => .next ((s.setReg x imm).advance 3)

/-- PRN r (R72). -/
def execPrn (r : Byte) (s : State) : Result :=
  withReg r s fun x => .next ((s.emit (s.reg x)).advance 2)

end Sys2Proof.Machine
end

