-- ==== Sys2Proof/Syntax.lean ====
section
/-!
DEFINITION. The instructions of the core: one constructor for each row of spec/opcode_table.json
(spec/30_encoding.md R45, R49). An operand is the whole byte that follows the opcode in memory (R48): a byte that
names a register is checked when the instruction executes, not masked when it is decoded (R14), so it is kept as it is.
-/

namespace Sys2Proof

/-- An instruction with its operand bytes (R49). -/
inductive Instr where
  /-- HLT (R70). -/
  | hlt
  /-- LDI r, imm (R71). -/
  | ldi (r imm : Byte)
  /-- PRN r (R72). -/
  | prn (r : Byte)
  /-- ADD a, b (R76). -/
  | add (a b : Byte)
  /-- MUL a, b (R77). -/
  | mul (a b : Byte)
  /-- CMP a, b (R78). -/
  | cmp (a b : Byte)
  /-- AND a, b (R79). -/
  | and (a b : Byte)
  /-- OR a, b (R80). -/
  | or (a b : Byte)
  /-- XOR a, b (R81). -/
  | xor (a b : Byte)
  /-- PUSH r (R91). -/
  | push (r : Byte)
  /-- POP r (R92). -/
  | pop (r : Byte)
  /-- CALL r (R96). -/
  | call (r : Byte)
  /-- RET (R97). -/
  | ret
  /-- JMP r (R98). -/
  | jmp (r : Byte)
  /-- JEQ r (R99). -/
  | jeq (r : Byte)
  /-- JNE r (R100). -/
  | jne (r : Byte)
  deriving DecidableEq, Repr

end Sys2Proof
end

