-- ==== Sys2Proof/WellFormed.lean ====
section
/-!
DEFINITION. Which instructions are well formed: those whose register operands name a register
(spec/10_state.md R14, spec/30_encoding.md R48). An instruction that is not well formed is still decoded and executed;
its meaning raises BOUNDS_REGISTER (log 21).
-/

namespace Sys2Proof

/-- The operand bytes of an instruction that are register indices, in order (R45, R48, R49). -/
def Instr.regOperands : Instr → List Byte
  | .hlt => []
  | .ldi r _ => [r]
  | .prn r => [r]
  | .add a b => [a, b]
  | .mul a b => [a, b]
  | .cmp a b => [a, b]
  | .and a b => [a, b]
  | .or a b => [a, b]
  | .xor a b => [a, b]
  | .push r => [r]
  | .pop r => [r]
  | .call r => [r]
  | .ret => []
  | .jmp r => [r]
  | .jeq r => [r]
  | .jne r => [r]

/-- A byte that may be used as a register index: 0 to 7, all eight bits taking part (R14, R48). -/
def legalRegByte (b : Byte) : Bool := b.toNat ≤ 7

/-- Every register operand is a legal register index (R14). -/
def Instr.wellFormed (i : Instr) : Bool := i.regOperands.all legalRegByte

end Sys2Proof
end

