-- ==== Sys2Proof/Decode.lean ====
section
/-!
DEFINITION. The opcode table, the decoder and the encoder (spec/30_encoding.md R45 to R53, spec/opcode_table.json).
The decoder reads an instruction from the bytes at its address, lowest address first (spec/20_memory.md R36): it looks
the whole first byte up in the table (R47) and only then takes the operand bytes (spec/40_step_cycle.md R63, R64).
It takes the table as an argument, as R53 allows; the core's own table is `opcodeTable`.
-/

namespace Sys2Proof

/-! ### The opcode byte -/

/-- The opcode bytes of R49. PRESUMED: the source gives none; they are spec decision D1, from general knowledge (log 1). -/
def opcodeTable : OpcodeTable
  | .hlt => 0b00000001
  | .ldi => 0b10000010
  | .prn => 0b01000111
  | .add => 0b10100000
  | .mul => 0b10100010
  | .cmp => 0b10100111
  | .and => 0b10101000
  | .or => 0b10101010
  | .xor => 0b10101011
  | .push => 0b01000101
  | .pop => 0b01000110
  | .call => 0b01010000
  | .ret => 0b00010001
  | .jmp => 0b01010100
  | .jeq => 0b01010101
  | .jne => 0b01010110

/-- Field NOPS of an opcode byte, bits 7:6: how many operand bytes follow (R45, R46). -/
def nopsField (b : Byte) : Nat := (b >>> 6).toNat

/-- Field SPC of an opcode byte, bit 4: the instruction sets PC itself (R46). -/
def spcField (b : Byte) : Bool := b.getLsbD 4

/-- How many operand bytes the instruction's format has: 0 for F0, 1 for F1, 2 for F2R and F2I (R45, R50.1). -/
def Op.operandCount : Op → Nat
  | .hlt => 0
  | .ret => 0
  | .prn => 1
  | .push => 1
  | .pop => 1
  | .call => 1
  | .jmp => 1
  | .jeq => 1
  | .jne => 1
  | .ldi => 2
  | .add => 2
  | .mul => 2
  | .cmp => 2
  | .and => 2
  | .or => 2
  | .xor => 2

/-- The five instructions that set PC themselves (R46, R50.2). -/
def Op.setsPc : Op → Bool
  | .call => true
  | .ret => true
  | .jmp => true
  | .jeq => true
  | .jne => true
  | .hlt => false
  | .ldi => false
  | .prn => false
  | .add => false
  | .mul => false
  | .cmp => false
  | .and => false
  | .or => false
  | .xor => false
  | .push => false
  | .pop => false

/-- No byte stands for two instructions (R50.3). -/
def tableDistinct (t : OpcodeTable) : Prop := ∀ o o' : Op, t o = t o' → o = o'

/-- The four constraints that the source sets on any opcode table (R50). -/
def tableMeetsSource (t : OpcodeTable) : Prop :=
  (∀ o : Op, nopsField (t o) = o.operandCount) ∧ (∀ o : Op, spcField (t o) = o.setsPc) ∧
    tableDistinct t ∧ ∀ o : Op, t o ≠ 0b11111111

/-- The row of the table whose byte is `b`: dispatch is by the whole byte (R47). -/
def lookupOp (t : OpcodeTable) (b : Byte) : Option Op := Op.all.find? (fun o => t o == b)

/-! ### Decoding -/

/-- What the decoder answers on the bytes from an instruction's address upward. -/
inductive Decoded where
  /-- An instruction, and the bytes after it. -/
  | ok (i : Instr) (rest : List Byte)
  /-- There is no opcode byte. -/
  | noOpcode
  /-- The opcode byte is in no row of the table (R51). -/
  | unsupported (b : Byte)
  /-- The opcode byte is in the table and its `k`-th operand byte, counted from 1, is not there (R64). -/
  | missingOperand (k : Nat)
  deriving DecidableEq, Repr

/-- One operand byte (format F1 of R45). -/
def takeOne (mk : Byte → Instr) : List Byte → Decoded
  | [] => .missingOperand 1
  | r :: rest => .ok (mk r) rest

/-- Two operand bytes, the first at the lower address (formats F2R and F2I of R45; R36). -/
def takeTwo (mk : Byte → Byte → Instr) : List Byte → Decoded
  | [] => .missingOperand 1
  | [_] => .missingOperand 2
  | a :: b :: rest => .ok (mk a b) rest

/-- The operand bytes of an instruction, taken from the bytes after its opcode in ascending order (R45, R49, R64).
LDI's register byte comes first: PRESUMED, spec decision D6 (log 7). -/
def takeOperands : Op → List Byte → Decoded
  | .hlt, rest => .ok .hlt rest
  | .ldi, rest => takeTwo .ldi rest
  | .prn, rest => takeOne .prn rest
  | .add, rest => takeTwo .add rest
  | .mul, rest => takeTwo .mul rest
  | .cmp, rest => takeTwo .cmp rest
  | .and, rest => takeTwo .and rest
  | .or, rest => takeTwo .or rest
  | .xor, rest => takeTwo .xor rest
  | .push, rest => takeOne .push rest
  | .pop, rest => takeOne .pop rest
  | .call, rest => takeOne .call rest
  | .ret, rest => .ok .ret rest
  | .jmp, rest => takeOne .jmp rest
  | .jeq, rest => takeOne .jeq rest
  | .jne, rest => takeOne .jne rest

/-- Decode under a given table: the table is consulted before any operand byte (R63). -/
def decodeWith (t : OpcodeTable) : List Byte → Decoded
  | [] => .noOpcode
  | b :: rest =>
    match lookupOp t b with
    | none => .unsupported b
    | some o => takeOperands o rest

/-- The core's decoder: the table is fixed at the sixteen rows (R53). -/
def decode (bytes : List Byte) : Decoded := decodeWith opcodeTable bytes

/-! ### Encoding -/

/-- The row of the table an instruction belongs to. -/
def Instr.op : Instr → Op
  | .hlt => .hlt
  | .ldi _ _ => .ldi
  | .prn _ => .prn
  | .add _ _ => .add
  | .mul _ _ => .mul
  | .cmp _ _ => .cmp
  | .and _ _ => .and
  | .or _ _ => .or
  | .xor _ _ => .xor
  | .push _ => .push
  | .pop _ => .pop
  | .call _ => .call
  | .ret => .ret
  | .jmp _ => .jmp
  | .jeq _ => .jeq
  | .jne _ => .jne

/-- The operand bytes of an instruction, lowest address first (R36, R45, R49). -/
def Instr.operands : Instr → List Byte
  | .hlt => []
  | .ldi r imm => [r, imm]
  | .prn r => [r]
  | .add a b => [a, b]
  | .mul a b => [a, b]
  | .cmp a b => [a, b]
  | .and a b => [a, b]
  | .or a b => [a, b]
  | .xor a b => [a, b]
  | .push r => [r]
  | .pop r => [r]
  | .call r => [r]
  | .ret => []
  | .jmp r => [r]
  | .jeq r => [r]
  | .jne r => [r]

/-- The length of an instruction in bytes: the opcode and its operands (R45). -/
def Instr.length (i : Instr) : Nat := 1 + i.operands.length

/-- The bytes of an instruction under a given table, lowest address first. -/
def encodeWith (t : OpcodeTable) (i : Instr) : List Byte := t i.op :: i.operands

/-- The bytes of an instruction of the core (R49). -/
def encode (i : Instr) : List Byte := encodeWith opcodeTable i

/-! ### Words as spec/opcode_table.json numbers them -/

/-- The three bytes of a word whose bits above `nbits` are 0: bits 7:0 are the opcode byte, the byte at the lowest
address; the operand bytes follow (R36, R45). Three bytes are the longest instruction. -/
def wordBytes (nbits w : Nat) : List Byte :=
  let v := w % 2 ^ nbits
  [trunc8 v, trunc8 (v / 256), trunc8 (v / 65536)]

/-- The instruction that the decoder reads from such a word. -/
def decodeTableWord (nbits w : Nat) : Option Instr :=
  match decode (wordBytes nbits w) with
  | .ok i _ => some i
  | .noOpcode => none
  | .unsupported _ => none
  | .missingOperand _ => none

end Sys2Proof
end

