-- ==== Sys2Proof/Machine/Fetch.lean ====
section
/-!
DEFINITION. The first parts of a step: fetch, decode, operand fetch, and the faults they raise
(spec/40_step_cycle.md R62 to R64, spec/60_exceptions.md R107, R108, R115).
-/

namespace Sys2Proof.Machine

/-- The bytes from PC upward that exist, at most the three of the longest instruction (R45, R62, R64): a byte that is not
in this list lies at an address above 255. -/
def State.codeBytes (s : State) : List Byte := s.mem.bytesFrom s.pc.toNat 3

/-- `IR <- Mem[PC]`; where PC is past memory IR keeps its value (R62; spec decision D25, log 12). -/
def State.loadIr (s : State) : State :=
  match s.mem.readChecked s.pc.toNat with
  | some b => { s with ir := b }
  | none => s

/-- What the parts of a step before the execution of the instruction's own rule come to. -/
inductive Fetched where
  /-- An instruction to execute, in the state with IR written. -/
  | run (i : Instr) (s : State)
  /-- A fault was raised. -/
  | raised (s : State)
  deriving DecidableEq, Repr

/-- Fetch, decode and operand fetch in the order of R62 to R64. -/
def fetch (s : State) : Fetched :=
  match decode s.codeBytes with
  | .ok i _ => .run i s.loadIr
  | .noOpcode => .raised (s.loadIr.raise .boundsFetch s.pc)
  | .unsupported b => .raised (s.loadIr.raise .unsupportedInstruction (zext9 b))
  | .missingOperand k => .raised (s.loadIr.raise .boundsFetch (BitVec.ofNat 9 (s.pc.toNat + k)))

/-- Store bytes at ascending addresses from `a` on; a byte whose address is outside memory is not stored. -/
def State.placeBytes (s : State) : Nat → List Byte → State
  | _, [] => s
  | a, b :: rest =>
    match s.mem.writeChecked a b with
    | some m => State.placeBytes { s with mem := m } (a + 1) rest
    | none => s

end Sys2Proof.Machine
end

