-- ==== Sys2Proof/Machine/Step.lean ====
section
/-!
DEFINITION. One step of the core (spec/40_step_cycle.md R60 to R67), and where the next instruction is fetched from.
-/

namespace Sys2Proof.Machine

/-- One whole instruction. A step is taken exactly when RUN = RUNNING (R61; log 5). -/
def step (s : State) : Host.Outcome State Fault Refusal :=
  match s.run with
  | .halted => .fault .haltedHasNoStep
  | .running =>
    match fetch s with
    | .run i t => exec i t
    | .raised t => .next t

/-- `s` with the bytes of a word of spec/opcode_table.json stored from PC on. RUN is not touched: only reset leaves
HALTED (R23; log 18). -/
def State.withFetchWord (s : State) (nbits w : Nat) : State := s.placeBytes s.pc.toNat (wordBytes nbits w)

end Sys2Proof.Machine
end

