-- ==== Sys2Proof/Machine/Interface.lean ====
section
/-!
DEFINITION. The contacts of the core with the outside as functions of states: reset, the loader, and what the output
signals show (spec/10_state.md R28, spec/70_reset_and_hazards.md R125, R126, R131; log 18, log 20).
-/

namespace Sys2Proof.Machine

/-! ### Inputs -/

/-- `rst`: every state element takes its reset value, whatever the state was (R28, R125). -/
def State.rst (_ : State) : State := State.reset

/-- One use of the loader port: `Mem[ld_addr] <- ld_data` when `ld_we` is 1 (R28). It belongs to the load phase, before
the first step. -/
def State.loaderPort (s : State) (we : Bool) (addr data : Byte) : State := if we then s.storeByte addr data else s

/-- The loader: the image's bytes at addresses 0, 1, 2, ...; an image that is longer than memory is refused (R55, R126;
spec decision D18, log 18). Nothing but memory changes. -/
def State.load (s : State) (image : List Byte) : Option State :=
  if image.length ≤ Config.maxImageLen then some (s.placeBytes 0 image) else none

/-- `init(image)` of R126. -/
def State.init (image : List Byte) : Option State := State.reset.load image

/-! ### Outputs -/

/-- `running` (R28). -/
def State.runningPin (s : State) : Bool := s.run == .running

/-- `fault_valid` (R28). -/
def State.faultValidPin (s : State) : Bool := s.fault.isSome

/-- The three-bit codes of R106 (spec decision D13, log 14). -/
def FaultKind.code : FaultKind → BitVec 3
  | .unsupportedInstruction => 1
  | .boundsFetch => 2
  | .boundsRegister => 3
  | .boundsStackLow => 4
  | .boundsStackHigh => 5
  | .boundsReturnAddress => 6
  | .aluFault => 7

/-- `fault_kind`: 0 while there is no fault (R28, R106). -/
def State.faultKindPin (s : State) : BitVec 3 :=
  match s.fault with
  | none => 0
  | some f => f.kind.code

/-- `fault_pc` and `fault_info`, which show the record while `fault_valid` is 1; the spec gives them no value otherwise
(R28; log 20). -/
def State.faultPins (s : State) : Option (Word9 × Word9) := s.fault.map fun f => (f.pc, f.info)

/-- `out_valid` and `out_data` over the step from `s` to `t`: a pulse with the byte that OUT gained, or no pulse (R28). -/
def outPulse (s t : State) : Option Byte := (t.out.drop s.out.length).head?

end Sys2Proof.Machine
end

