-- ==== Sys2Proof/Safety.lean ====
section
/-!
DEFINITION. The words in which claims about the core are stated: how a run ends (spec/40_step_cycle.md R69), which states
are legal, what it means that parts of the state are unchanged, and instructions executed one after another.
-/

namespace Sys2Proof.Machine

/-! ### How a run ends -/

/-- A final state: halted with no fault (R69). -/
def State.isFinal (s : State) : Prop := s.run = .halted ∧ s.fault = none

/-- A faulted state: halted with a fault recorded (R69). -/
def State.isFaulted (s : State) : Prop := s.run = .halted ∧ s.fault ≠ none

/-- The state after fault `k` with datum `info` was raised in `s`: RUN and FAULT written, all else as it was (R116). -/
def faultedFrom (s : State) (k : FaultKind) (info : Word9) : State :=
  { regs := s.regs, pc := s.pc, fl := s.fl, ir := s.ir, run := .halted, fault := some ⟨k, s.pc, info⟩,
    mem := s.mem, out := s.out }

/-! ### Legal states -/

/-- FL holds no flag, or exactly one of E, G, L, and bits 7:3 are 0 (R20, R21). -/
def legalFl (fl : Byte) : Prop := fl = 0 ∨ fl = 1 ∨ fl = 2 ∨ fl = 4

/-- What R106 lets the info of a fault record be, by kind. -/
def FaultRecord.legal (f : FaultRecord) : Prop :=
  f.pc.toNat ≤ 256 ∧
    match f.kind with
    | .unsupportedInstruction => f.pc.toNat ≤ 255 ∧ f.info.toNat ≤ 255 ∧ ∀ o : Op, zext9 (opcodeTable o) ≠ f.info
    | .boundsFetch => 254 ≤ f.pc.toNat ∧ f.info = 256
    | .boundsRegister => f.pc.toNat ≤ 254 ∧ 8 ≤ f.info.toNat ∧ f.info.toNat ≤ 255
    | .boundsStackLow => f.pc.toNat ≤ 254 ∧ f.info = 0
    | .boundsStackHigh => f.pc.toNat ≤ 255 ∧ f.info = 0xFF
    | .boundsReturnAddress => f.pc = 254 ∧ f.info = 256
    | .aluFault => False

/-- The invariant of the core: memory in its canonical form, PC at most 256 (R18), FL legal (R21), and a recorded fault
is a legal one, recorded at PC in a halted core (R24, R67, R106, R113). -/
structure Inv (s : State) : Prop where
  memWf : s.mem.wf = true
  pcRange : s.pc.toNat ≤ 256
  flLegal : legalFl s.fl
  faultHalted : s.fault ≠ none → s.run = .halted
  faultLegal : ∀ f, s.fault = some f → f.legal ∧ f.pc = s.pc

/-! ### What is unchanged -/

/-- Every byte of memory reads as before. -/
def sameMem (s t : State) : Prop := ∀ a : Nat, t.mem.read a = s.mem.read a

/-- Every byte of memory reads as before, but for the byte at `a`. -/
def sameMemBut (a : Byte) (s t : State) : Prop := ∀ b : Nat, b ≠ a.toNat → t.mem.read b = s.mem.read b

/-- Every register but those listed holds what it held. -/
def sameRegsBut (l : List RegIx) (s t : State) : Prop := ∀ j : RegIx, j ∉ l → t.reg j = s.reg j

/-- IR, RUN and FAULT are unchanged. -/
def sameControl (s t : State) : Prop := t.ir = s.ir ∧ t.run = s.run ∧ t.fault = s.fault

/-- An instruction that may write only the registers listed, and PC: FL, memory, OUT, IR, RUN and FAULT are as before. -/
def onlyRegs (l : List RegIx) (s t : State) : Prop :=
  sameRegsBut l s t ∧ t.fl = s.fl ∧ sameMem s t ∧ t.out = s.out ∧ sameControl s t

/-- Two states that agree on everything but bits 7:1 of FL (R101). -/
def sameButGL (s t : State) : Prop :=
  t.regs = s.regs ∧ t.pc = s.pc ∧ flagE t.fl = flagE s.fl ∧ t.ir = s.ir ∧ t.run = s.run ∧ t.fault = s.fault ∧
    t.mem = s.mem ∧ t.out = s.out

/-! ### Tables of the spec, restated for claims -/

/-- The registers that the table of R15 lets an instruction write; an operand byte that names no register adds none. -/
def writtenRegs : Instr → List RegIx
  | .ldi r _ => (regIdx r).toList
  | .add a _ => (regIdx a).toList
  | .mul a _ => (regIdx a).toList
  | .and a _ => (regIdx a).toList
  | .or a _ => (regIdx a).toList
  | .xor a _ => (regIdx a).toList
  | .push _ => [7]
  | .pop r => 7 :: (regIdx r).toList
  | .call _ => [7]
  | .ret => [7]
  | .hlt => []
  | .prn _ => []
  | .cmp _ _ => []
  | .jmp _ => []
  | .jeq _ => []
  | .jne _ => []

/-- PC after an instruction that did not fault, by the table of R19. Where an operand byte names no register, which
faults, the table has no row and PC is given as it was. -/
def expectedPc (s : State) : Instr → Word9
  | .hlt => s.pc + 1
  | .prn _ => s.pc + 2
  | .push _ => s.pc + 2
  | .pop _ => s.pc + 2
  | .ldi _ _ => s.pc + 3
  | .add _ _ => s.pc + 3
  | .mul _ _ => s.pc + 3
  | .cmp _ _ => s.pc + 3
  | .and _ _ => s.pc + 3
  | .or _ _ => s.pc + 3
  | .xor _ _ => s.pc + 3
  | .call r => (regIdx r).elim s.pc fun x => zext9 (if x = 7 then s.reg 7 - 1 else s.reg x)
  | .ret => zext9 (s.mem.read (s.reg 7).toNat)
  | .jmp r => (regIdx r).elim s.pc fun x => zext9 (s.reg x)
  | .jeq r => (regIdx r).elim s.pc fun x => if s.fl.getLsbD 0 then zext9 (s.reg x) else s.pc + 2
  | .jne r => (regIdx r).elim s.pc fun x => if s.fl.getLsbD 0 then s.pc + 2 else zext9 (s.reg x)

/-- The first fault, in the order of R115, whose condition a running state meets; the conditions are those of R106, read
from the bytes at PC and the stack pointer. -/
def firstFault (s : State) : Option (FaultKind × Word9) :=
  let a := s.pc.toNat
  let b := s.mem.read a
  let op1 := s.mem.read (a + 1)
  let op2 := s.mem.read (a + 2)
  let sp := s.reg 7
  if a > 255 then some (.boundsFetch, 256)
  else
    match Op.all.find? (fun o => opcodeTable o == b) with
    | none => some (.unsupportedInstruction, zext9 b)
    | some o =>
      if a + nopsField b > 255 then some (.boundsFetch, 256)
      else if o ∉ [Op.hlt, .ret] ∧ op1.toNat > 7 then some (.boundsRegister, zext9 op1)
      else if o ∈ [Op.add, .mul, .cmp, .and, .or, .xor] ∧ op2.toNat > 7 then some (.boundsRegister, zext9 op2)
      else if o = .call ∧ a + 2 > 255 then some (.boundsReturnAddress, 256)
      else if o ∈ [Op.push, .call] ∧ sp = 0x00 then some (.boundsStackLow, 0x00)
      else if o = .pop ∧ (if op1 = 7 then s.mem.read sp.toNat else sp) = 0xFF then some (.boundsStackHigh, 0xFF)
      else if o = .ret ∧ sp = 0xFF then some (.boundsStackHigh, 0xFF)
      else none

/-! ### Sequences -/

/-- Instructions executed one after another by their own meanings, with no fetch between them. -/
def execSeq : List Instr → State → Result
  | [], s => .next s
  | i :: is, s =>
    match exec i s with
    | .next t => execSeq is t
    | .fault r => .fault r
    | .refused r => .refused r

end Sys2Proof.Machine
end

