-- ==== Sys2Proof/Certificates/Slice0/Obligations.lean ====
section
/-!
DEFINITION. What is claimed of the core. Each statement names the rule of spec/ it formalises; where a clause rests on a
decision that the spec marks as its own, or on general knowledge, the docstring names the decision and the log entry.
-/

open Sys2Proof Sys2Proof.Machine

/-! ## Reset and load -/

/-- The state after reset (10_state.md section 7). Memory, the stack pointer and RUN are the source's values; r0 to r6, FL
and IR are spec decision D3 from general knowledge, PC, FAULT and OUT are derived by the spec (log 2). -/
def Obligations.ResetValuesOfEveryElement : Prop :=
  (∀ a : Nat, State.reset.mem.read a = 0x00) ∧ State.reset.reg 7 = 0xF4 ∧ State.reset.run = .running ∧
    (∀ r : RegIx, r ≠ 7 → State.reset.reg r = 0x00) ∧ State.reset.pc = 0 ∧ State.reset.fl = 0x00 ∧
    State.reset.ir = 0x00 ∧ State.reset.fault = none ∧ State.reset.out = []

/-- The loader puts the image at addresses 0, 1, 2, ..., leaves every other cell zero and touches nothing but memory; an
image of more than 256 bytes has no initial state (70_reset_and_hazards.md section 1; the refusal is spec decision D18,
log 18). -/
def Obligations.LoaderPlacesTheImageAndNothingElse : Prop :=
  ∀ image : List Byte,
    (image.length ≤ 256 → ∃ s, State.init image = some s ∧ (∀ a : Nat, s.mem.read a = image.getD a 0x00) ∧
      s.mem.wf = true ∧ s.regs = State.reset.regs ∧ s.pc = State.reset.pc ∧ s.fl = State.reset.fl ∧
      s.ir = State.reset.ir ∧ s.run = State.reset.run ∧ s.fault = State.reset.fault ∧ s.out = State.reset.out) ∧
    (256 < image.length → State.init image = none)

/-! ## Memory -/

/-- A checked write in range is read back, changes no other cell and keeps the canonical form; out of range there is no
read and no write (20_memory.md section 1). The canonical form is the model's (log 19). -/
def Obligations.CheckedWriteIsReadBackAndLocal : Prop :=
  ∀ (m : Memory) (a : Nat) (v : Byte), m.wf = true →
    (a ≤ 255 → ∃ m', m.writeChecked a v = some m' ∧ m'.readChecked a = some v ∧
      (∀ b, b ≠ a → m'.readChecked b = m.readChecked b) ∧ m'.wf = true) ∧
    (255 < a → m.writeChecked a v = none ∧ m.readChecked a = none)

/-- Two canonical memories that read the same at the 256 addresses are the same data (the model's choice of
representation, log 19). -/
def Obligations.CanonicalMemoriesThatReadAlikeAreEqual : Prop :=
  ∀ m m' : Memory, m.wf = true → m'.wf = true → (∀ a, a ≤ 255 → m.read a = m'.read a) → m = m'

/-! ## Encoding -/

/-- The opcode table meets the four constraints that the source sets on any table (R50). -/
def Obligations.OpcodeTableMeetsTheFourConstraints : Prop :=
  (∀ i : Instr, nopsField (opcodeTable i.op) = i.operands.length) ∧
    (∀ i : Instr, spcField (opcodeTable i.op) = true ↔ i.op ∈ [Op.call, .ret, .jmp, .jeq, .jne]) ∧
    (∀ o o' : Op, o ≠ o' → opcodeTable o ≠ opcodeTable o') ∧ ∀ o : Op, opcodeTable o ≠ 0b11111111

/-- Under any table whose bytes are pairwise different, the bytes of an instruction, whatever its operand bytes and
whatever follows it, decode to that instruction and leave what follows (30_encoding.md sections 1 to 3; the core's own
table is spec decision D1, log 1). -/
def Obligations.DecodeOfEncodeUnderAnyDistinctTable : Prop :=
  ∀ (t : OpcodeTable), (∀ o o' : Op, t o = t o' → o = o') →
    ∀ (i : Instr) (rest : List Byte), decodeWith t (encodeWith t i ++ rest) = .ok i rest

/-- Whatever bytes decode to an instruction are the bytes of that instruction: no bit is ignored (30_encoding.md
sections 1 and 2; 93_implementation_defined.md section 2). -/
def Obligations.DecodedBytesAreTheEncoding : Prop :=
  ∀ (t : OpcodeTable) (bytes : List Byte) (i : Instr) (rest : List Byte),
    decodeWith t bytes = .ok i rest → bytes = encodeWith t i ++ rest

/-- An instruction cut off after `n` of its operand bytes is no instruction, and the decoder names operand `n + 1`
(40_step_cycle.md section 2; the exact number of operand bytes is spec decision D22, log 16). -/
def Obligations.CutOffInstructionNamesItsMissingOperand : Prop :=
  ∀ (t : OpcodeTable), (∀ o o' : Op, t o = t o' → o = o') →
    ∀ (i : Instr) (n : Nat), n < i.operands.length →
      decodeWith t (t i.op :: i.operands.take n) = .missingOperand (n + 1)

/-- A first byte other than the sixteen is unsupported whatever follows it; the sixteen are pairwise different, so 240
bytes are left (30_encoding.md section 4; the sixteen values are spec decision D1, log 1). -/
def Obligations.TheOther240BytesAreUnsupported : Prop :=
  (∀ (b : Byte) (rest : List Byte), decode (b :: rest) = .unsupported b ↔
    b ∉ [(0x01 : Byte), 0x82, 0x47, 0xA0, 0xA2, 0xA7, 0xA8, 0xAA, 0xAB, 0x45, 0x46, 0x50, 0x11, 0x54, 0x55, 0x56]) ∧
  [(0x01 : Byte), 0x82, 0x47, 0xA0, 0xA2, 0xA7, 0xA8, 0xAA, 0xAB, 0x45, 0x46, 0x50, 0x11, 0x54, 0x55, 0x56].Nodup

/-- Words written out from the spec's encodings, one of each family and format, decode to what they stand for (the
opcode values are spec decision D1, LDI's operand order is D6: log 1, log 7). -/
def Obligations.WordsOfTheSpecDecode : Prop :=
  decode [0b00000001, 0xFF] = .ok .hlt [0xFF] ∧ decode [0b10000010, 0x03, 0x2A] = .ok (.ldi 0x03 0x2A) [] ∧
    decode [0b01000111, 0x05] = .ok (.prn 0x05) [] ∧ decode [0b10100000, 0x02, 0x01] = .ok (.add 0x02 0x01) [] ∧
    decode [0b10100111, 0x06, 0x07] = .ok (.cmp 0x06 0x07) [] ∧ decode [0b01000101, 0x80] = .ok (.push 0x80) [] ∧
    decode [0b00010001] = .ok .ret [] ∧ decode [0b01010101, 0x04] = .ok (.jeq 0x04) [] ∧
    decode [0b11111111, 0x00, 0x00] = .unsupported 0b11111111

/-! ## The step -/

/-- A step is taken exactly when RUN = RUNNING; a halted state has no step, now or later, and reset is what leaves it
(R61). -/
def Obligations.StepIsTakenExactlyWhileRunning : Prop :=
  ∀ s : State, (s.run = .running ↔ ∃ t, step s = .next t) ∧
    (s.run = .halted → ∀ (n : Nat) (t : State), core.run (n + 1) s ≠ .next t) ∧ s.rst.run = .running

/-- A step of a running core whose bytes at PC decode to `i` is the execution of `i` with the opcode byte in IR
(40_step_cycle.md sections 2 and 3). What the model adds around `exec` is that write of IR and nothing else (log 4). -/
def Obligations.StepExecutesTheDecodedInstruction : Prop :=
  ∀ (s : State) (i : Instr) (rest : List Byte), s.run = .running → decode s.codeBytes = .ok i rest →
    step s = exec i { s with ir := s.mem.read s.pc.toNat }

/-- The same in terms of memory: where the bytes of an instruction stand at PC and the last of them is at address 255 at
most, the step executes that instruction (40_step_cycle.md section 2; that no further byte is fetched is spec decision
D22, log 16). -/
def Obligations.StepExecutesTheInstructionInMemory : Prop :=
  ∀ (s : State) (i : Instr), s.run = .running → s.pc.toNat + i.length ≤ 256 →
    (∀ k, k < i.length → s.mem.read (s.pc.toNat + k) = (encode i).getD k 0x00) →
    step s = exec i { s with ir := opcodeTable i.op }

/-- Fetch (40_step_cycle.md section 2): with PC = 256 the step raises BOUNDS_FETCH(256) and changes nothing but RUN and FAULT;
otherwise IR takes the byte at PC. That PC can hold 256 is spec decision D2 (log 3); that a faulting step changes nothing but
IR, RUN and FAULT is D11, that IR is kept at 256 and holds the byte even where the step later faults is D25 (log 12). -/
def Obligations.FetchLoadsIrOrFaultsAt256 : Prop :=
  ∀ s : State, s.run = .running →
    (s.pc = 256 → step s = .next (faultedFrom s .boundsFetch 256)) ∧
    (s.pc.toNat ≤ 255 → ∃ t, step s = .next t ∧ t.ir = s.mem.read s.pc.toNat)

/-- A byte in no row of the table raises UNSUPPORTED_INSTRUCTION with that byte, wherever it lies and whatever its bits
7:6 say: no operand byte is fetched (60_exceptions.md section 2). The bytes 0b11111111 and 0x00 are such bytes; that 0x00
is one rests on the table's values, spec decision D1 (log 1). That nothing but IR, RUN and FAULT changes is D11, that IR
holds the byte is D25 (log 12). -/
def Obligations.UnsupportedByteFaults : Prop :=
  (∀ s : State, s.run = .running → s.pc.toNat ≤ 255 → (∀ o : Op, opcodeTable o ≠ s.mem.read s.pc.toNat) →
    step s = .next (faultedFrom { s with ir := s.mem.read s.pc.toNat } .unsupportedInstruction
      (zext9 (s.mem.read s.pc.toNat)))) ∧
  ∀ o : Op, opcodeTable o ≠ 0b11111111 ∧ opcodeTable o ≠ 0x00

/-- BOUNDS_FETCH (60_exceptions.md section 2): at PC = 256 with record pc 256; at an operand byte above address 255 with record
pc PC, which is 254 or 255; the datum is 256 each time. And PC becomes 256 only by sequential advance from an instruction
whose last byte is at 255, or at a not-taken JEQ or JNE. That PC can hold 256 is spec decision D2 (log 3), that exactly the
operand bytes of the instruction are fetched is D22 (log 16). That nothing but IR, RUN and FAULT changes is D11, that IR
holds the opcode byte, or its old value at 256, is D25 (log 12). -/
def Obligations.FetchPastMemoryFaults : Prop :=
  ∀ s : State, s.run = .running →
    (s.pc = 256 → step s = .next (faultedFrom s .boundsFetch 256)) ∧
    (∀ i : Instr, s.pc.toNat ≤ 255 → s.mem.read s.pc.toNat = opcodeTable i.op →
      255 < s.pc.toNat + i.operands.length →
      step s = .next (faultedFrom { s with ir := opcodeTable i.op } .boundsFetch 256) ∧
        (s.pc = 254 ∨ s.pc = 255)) ∧
    (∀ t : State, s.pc.toNat ≤ 255 → step s = .next t → t.pc = 256 →
      ∃ i rest, decode s.codeBytes = .ok i rest ∧ s.pc.toNat + i.length = 256 ∧
        (i.op.setsPc = false ∨ (i.op = .jeq ∧ flagE s.fl = false) ∨ (i.op = .jne ∧ flagE s.fl = true)))

/-- PC update (40_step_cycle.md section 2): after a step that did not fault, with SPC = 0 PC is past the instruction, without
wrap-around and in 1..256, after HLT too; with SPC = 1 the dispatcher has not touched PC, which the instruction's own rule
wrote. PC's ninth bit is spec decision D2 (log 3); that CALL r7 jumps to the decremented pointer is D10 (log 11); the model
advances by the instruction's length inside `exec` (log 4). -/
def Obligations.DispatcherAdvancesPcUnlessSpc : Prop :=
  ∀ s t : State, s.fault = none → step s = .next t → t.fault = none →
    (spcField t.ir = false → t.pc.toNat = s.pc.toNat + 1 + nopsField t.ir ∧ 1 ≤ t.pc.toNat ∧ t.pc.toNat ≤ 256) ∧
    (spcField t.ir = true → ∃ i rest, decode s.codeBytes = .ok i rest ∧ i.op.setsPc = true ∧
      exec i { s with ir := t.ir } = .next t ∧ t.pc = expectedPc s i)

/-- The table of PC after each instruction, and PC unchanged after a fault (10_state.md section 3). That CALL r7 jumps to the
decremented pointer is spec decision D10 (log 11), that a fault keeps PC is D11 (log 12). -/
def Obligations.PcAfterEachInstruction : Prop :=
  ∀ (i : Instr) (s t : State), s.fault = none → exec i s = .next t →
    (t.fault = none → t.pc = expectedPc s i) ∧ (t.fault ≠ none → t.pc = s.pc)

/-! ## Instructions: what they do, and what they leave alone -/

/-- HLT (41_system_data.md): RUN becomes HALTED, PC advances by one, nothing else changes. -/
def Obligations.HltHaltsAndAdvances : Prop :=
  ∀ s : State, exec .hlt s = .next { s with run := .halted, pc := s.pc + 1 }

/-- LDI (41_system_data.md): the register takes the whole immediate byte; only it and PC change. Register 7 is a register
like the others. That the register byte comes first is spec decision D6 (log 7). -/
def Obligations.LdiLoadsItsImmediate : Prop :=
  ∀ (s : State) (b imm : Byte) (r : RegIx), b.toNat = r.val →
    ∃ t, exec (.ldi b imm) s = .next t ∧ t.reg r = imm ∧ onlyRegs [r] s t ∧ t.pc = s.pc + 3

/-- PRN (41_system_data.md): OUT gains the register's byte; nothing else but PC changes. -/
def Obligations.PrnAppendsTheRegister : Prop :=
  ∀ (s : State) (b : Byte) (r : RegIx), b.toNat = r.val →
    ∃ t, exec (.prn b) s = .next t ∧ t.out = s.out ++ [s.reg r] ∧ sameRegsBut [] s t ∧ t.fl = s.fl ∧ sameMem s t ∧
      sameControl s t ∧ t.pc = s.pc + 2

/-- ADD and MUL (42_alu.md sections 2 and 3): the first operand's register takes the sum or product modulo 256, the same
register twice and register 7 included; no flag, no other register and no memory changes. -/
def Obligations.AddAndMulWrapModulo256 : Prop :=
  ∀ (s : State) (a b : Byte) (x y : RegIx), a.toNat = x.val → b.toNat = y.val →
    (∃ t, exec (.add a b) s = .next t ∧ (t.reg x).toNat = ((s.reg x).toNat + (s.reg y).toNat) % 256 ∧
      onlyRegs [x] s t ∧ t.pc = s.pc + 3) ∧
    (∃ t, exec (.mul a b) s = .next t ∧ (t.reg x).toNat = ((s.reg x).toNat * (s.reg y).toNat) % 256 ∧
      onlyRegs [x] s t ∧ t.pc = s.pc + 3)

/-- AND, OR and XOR (42_alu.md sections 2 and 3): bit by bit on the eight bits, into the first operand's register. That they
are dispatched at all is spec decision D4 (log 17). -/
def Obligations.LogicWorksBitByBit : Prop :=
  ∀ (s : State) (a b : Byte) (x y : RegIx), a.toNat = x.val → b.toNat = y.val →
    (∃ t, exec (.and a b) s = .next t ∧
      (∀ k, k < 8 → (t.reg x).getLsbD k = ((s.reg x).getLsbD k && (s.reg y).getLsbD k)) ∧
      onlyRegs [x] s t ∧ t.pc = s.pc + 3) ∧
    (∃ t, exec (.or a b) s = .next t ∧
      (∀ k, k < 8 → (t.reg x).getLsbD k = ((s.reg x).getLsbD k || (s.reg y).getLsbD k)) ∧
      onlyRegs [x] s t ∧ t.pc = s.pc + 3) ∧
    (∃ t, exec (.xor a b) s = .next t ∧
      (∀ k, k < 8 → (t.reg x).getLsbD k = ((s.reg x).getLsbD k ^^ (s.reg y).getLsbD k)) ∧
      onlyRegs [x] s t ∧ t.pc = s.pc + 3)

/-- CMP (42_alu.md section 2): all of FL becomes exactly one of E, G, L by unsigned comparison; no register changes. That G
means first greater than second is spec decision D7, that bits 7:3 are 0 is D26 (log 8). -/
def Obligations.CmpSetsExactlyOneFlag : Prop :=
  ∀ (s : State) (a b : Byte) (x y : RegIx), a.toNat = x.val → b.toNat = y.val →
    ∃ t, exec (.cmp a b) s = .next t ∧
      ((s.reg x).toNat = (s.reg y).toNat → t.fl = 0b00000001) ∧
      ((s.reg y).toNat < (s.reg x).toNat → t.fl = 0b00000010) ∧
      ((s.reg x).toNat < (s.reg y).toNat → t.fl = 0b00000100) ∧
      sameRegsBut [] s t ∧ sameMem s t ∧ t.out = s.out ∧ sameControl s t ∧ t.pc = s.pc + 3

/-- PUSH (43_stack.md section 2) with a stack pointer other than 0: the pointer is decremented and the register's byte is
stored at the new pointer; every other byte, register and flag is unchanged. PUSH r7 stores the decremented pointer: spec
decision D10 (log 11). -/
def Obligations.PushStoresBelowTheStackPointer : Prop :=
  ∀ (s : State) (b : Byte) (r : RegIx), b.toNat = r.val → s.mem.wf = true → s.reg 7 ≠ 0x00 →
    ∃ t a, exec (.push b) s = .next t ∧ s.pushAddr = some a ∧ a.toNat + 1 = (s.reg 7).toNat ∧ t.reg 7 = a ∧
      t.mem.read a.toNat = (if r = 7 then a else s.reg r) ∧ sameMemBut a s t ∧ sameRegsBut [7] s t ∧ t.fl = s.fl ∧
      t.out = s.out ∧ sameControl s t ∧ t.pc = s.pc + 2

/-- POP (43_stack.md section 2): the byte at the stack pointer goes to the register and the pointer is incremented; memory
is unchanged. POP r7 loads the byte and increments it: spec decision D10 (log 11). The limits on the pointer are spec
decision D8 (log 9). -/
def Obligations.PopLoadsFromTheStackPointer : Prop :=
  ∀ (s : State) (b : Byte) (r : RegIx), b.toNat = r.val →
    (r ≠ 7 → s.reg 7 ≠ 0xFF → ∃ t, exec (.pop b) s = .next t ∧ t.reg r = s.mem.read (s.reg 7).toNat ∧
      (t.reg 7).toNat = (s.reg 7).toNat + 1 ∧ onlyRegs [r, 7] s t ∧ t.pc = s.pc + 2) ∧
    (r = 7 → s.mem.read (s.reg 7).toNat ≠ 0xFF → ∃ t, exec (.pop b) s = .next t ∧
      (t.reg 7).toNat = (s.mem.read (s.reg 7).toNat).toNat + 1 ∧ onlyRegs [7] s t ∧ t.pc = s.pc + 2)

/-- CALL (44_control.md section 2) at an address up to 253 with a stack pointer other than 0: the return address is stored
at the decremented pointer and PC takes the register's value. CALL r7 jumps to the decremented pointer: spec decision D10
(log 11). -/
def Obligations.CallPushesItsReturnAddress : Prop :=
  ∀ (s : State) (b : Byte) (r : RegIx), b.toNat = r.val → s.mem.wf = true → s.pc.toNat ≤ 253 → s.reg 7 ≠ 0x00 →
    ∃ t a, exec (.call b) s = .next t ∧ s.pushAddr = some a ∧ a.toNat + 1 = (s.reg 7).toNat ∧ t.reg 7 = a ∧
      (t.mem.read a.toNat).toNat = s.pc.toNat + 2 ∧ t.pc.toNat = (if r = 7 then a else s.reg r).toNat ∧
      sameMemBut a s t ∧ sameRegsBut [7] s t ∧ t.fl = s.fl ∧ t.out = s.out ∧ sameControl s t

/-- RET (44_control.md section 2) with a stack pointer other than 0xFF: PC takes the byte at the pointer, the pointer is
incremented, memory and FL are unchanged. The limit on the pointer is spec decision D8 (log 9). -/
def Obligations.RetPopsPc : Prop :=
  ∀ s : State, s.reg 7 ≠ 0xFF →
    ∃ t, exec .ret s = .next t ∧ t.pc.toNat = (s.mem.read (s.reg 7).toNat).toNat ∧
      (t.reg 7).toNat = (s.reg 7).toNat + 1 ∧ onlyRegs [7] s t

/-- JMP, JEQ and JNE (44_control.md section 2): JMP always sets PC to the register's value, JEQ exactly when bit 0 of FL is
1 and JNE exactly when it is 0; not taken, PC advances by two; nothing but PC changes. That the whole-register comparison
is bit 0 is spec decision D15 (log 8). -/
def Obligations.JumpsSetPcFromTheRegister : Prop :=
  ∀ (s : State) (b : Byte) (r : RegIx), b.toNat = r.val →
    (∃ t, exec (.jmp b) s = .next t ∧ t.pc.toNat = (s.reg r).toNat ∧ onlyRegs [] s t) ∧
    (∃ t, exec (.jeq b) s = .next t ∧ onlyRegs [] s t ∧
      (s.fl.getLsbD 0 = true → t.pc.toNat = (s.reg r).toNat) ∧ (s.fl.getLsbD 0 = false → t.pc = s.pc + 2)) ∧
    (∃ t, exec (.jne b) s = .next t ∧ onlyRegs [] s t ∧
      (s.fl.getLsbD 0 = false → t.pc.toNat = (s.reg r).toNat) ∧ (s.fl.getLsbD 0 = true → t.pc = s.pc + 2))

/-! ## Faults -/

/-- `RegIdx` (10_state.md section 2): a byte 0 to 7 is the index of that register; any other byte raises BOUNDS_REGISTER with
that byte, and it is not masked to three bits. That nothing but RUN and FAULT changes is spec decision D11 (log 12), the
record's layout is D13 (log 14). -/
def Obligations.RegIdxIsLegalExactlyUpToSeven : Prop :=
  ∀ (b : Byte) (s : State) (k : RegIx → Result),
    (b.toNat ≤ 7 → ∃ r : RegIx, r.val = b.toNat ∧ withReg b s k = k r) ∧
    (7 < b.toNat → withReg b s k = .next (faultedFrom s .boundsRegister (zext9 b)))

/-- BOUNDS_REGISTER (60_exceptions.md section 2): an operand byte above 7 that is used as a register index raises it with
that byte, in every instruction that has such an operand. That nothing but RUN and FAULT is written, by PUSH and CALL no
pointer, is spec decision D11 (log 12); that the first operand is checked first is D12 (log 13); that a conditional jump
checks its operand taken or not is D14 (log 15). -/
def Obligations.RegisterByteAboveSevenFaults : Prop :=
  (∀ mk ∈ [Instr.prn, .push, .pop, .call, .jmp, .jeq, .jne], ∀ (s : State) (b : Byte), 7 < b.toNat →
    exec (mk b) s = .next (faultedFrom s .boundsRegister (zext9 b))) ∧
  (∀ (s : State) (b imm : Byte), 7 < b.toNat →
    exec (.ldi b imm) s = .next (faultedFrom s .boundsRegister (zext9 b))) ∧
  (∀ mk ∈ [Instr.add, .mul, .cmp, .and, .or, .xor], ∀ (s : State) (a b : Byte),
    (7 < a.toNat → exec (mk a b) s = .next (faultedFrom s .boundsRegister (zext9 a))) ∧
    (a.toNat ≤ 7 → 7 < b.toNat → exec (mk a b) s = .next (faultedFrom s .boundsRegister (zext9 b))))

/-- BOUNDS_STACK_LOW (60_exceptions.md section 2): PUSH and CALL with x[7] = 0x00 raise it and nothing is written. CALL at
254 raises BOUNDS_RETURN_ADDRESS first (spec decisions D9 and D12: log 10, log 13), so its clause is for PC up to 253. When
the overrun is detected is D8 (log 9); that nothing but RUN and FAULT changes is D11 (log 12). -/
def Obligations.PushBelowAddressZeroFaults : Prop :=
  ∀ (s : State) (b : Byte), b.toNat ≤ 7 → s.reg 7 = 0x00 →
    exec (.push b) s = .next (faultedFrom s .boundsStackLow 0x00) ∧
    (s.pc.toNat ≤ 253 → exec (.call b) s = .next (faultedFrom s .boundsStackLow 0x00))

/-- BOUNDS_STACK_HIGH (60_exceptions.md section 2): POP and RET raise it when the pointer value about to be incremented is
0xFF, and nothing is written. When the overrun is detected is spec decision D8 (log 9); that for POP r7 that value is the
popped byte is D10 (log 11); that nothing but RUN and FAULT changes is D11 (log 12). -/
def Obligations.PopPastTheTopOfMemoryFaults : Prop :=
  ∀ s : State,
    (s.reg 7 = 0xFF → exec .ret s = .next (faultedFrom s .boundsStackHigh 0xFF) ∧
      ∀ b : Byte, b.toNat < 7 → exec (.pop b) s = .next (faultedFrom s .boundsStackHigh 0xFF)) ∧
    (s.mem.read (s.reg 7).toNat = 0xFF → exec (.pop 7) s = .next (faultedFrom s .boundsStackHigh 0xFF))

/-- CALL at 254 has return address 256 and raises BOUNDS_RETURN_ADDRESS(256) whatever the stack pointer is
(60_exceptions.md section 2). The fault is spec decision D9 and its priority D12 (log 10, log 13); that nothing but RUN and
FAULT changes is D11 (log 12). -/
def Obligations.CallAt254Faults : Prop :=
  ∀ (s : State) (b : Byte), b.toNat ≤ 7 → s.pc = 254 →
    exec (.call b) s = .next (faultedFrom s .boundsReturnAddress 256)

/-- A step that raises a fault changes nothing but IR, RUN and FAULT, and the record's pc is PC (40_step_cycle.md section 2,
60_exceptions.md section 4; spec decisions D11 and D25, log 12). -/
def Obligations.FaultsArePrecise : Prop :=
  ∀ s t : State, s.fault = none → step s = .next t → t.fault ≠ none →
    ∃ k info, t = faultedFrom { s with ir := if s.pc.toNat ≤ 255 then s.mem.read s.pc.toNat else s.ir } k info

/-- The fault of a step is the first in the priority list whose condition is met, and there is none where no condition is
met (60_exceptions.md section 3). The list's order is spec decision D12 (log 13), the kinds and the record are D13 (log 14).
The conditions are those of D2 for PC = 256 (log 3), D22 for the operand bytes (log 16), D14 for a jump not taken (log 15),
D9 for the return address (log 10), D8 for the stack pointer (log 9), and D10 for POP r7 (log 11). -/
def Obligations.FaultIsTheFirstOfThePriorityList : Prop :=
  ∀ s t : State, s.fault = none → s.pc.toNat ≤ 256 → step s = .next t →
    t.fault = (firstFault s).map fun f => ⟨f.1, s.pc, f.2⟩

/-- ALU_FAULT is raised by no step and by no instruction (R113). -/
def Obligations.AluFaultIsNeverRaised : Prop :=
  ∀ (s t : State) (f : FaultRecord), t.fault = some f → f.kind = .aluFault →
    (step s = .next t → s.fault = some f) ∧ ∀ i : Instr, exec i s = .next t → s.fault = some f

/-- A faulted core that a legal state can be takes no step, however often one asks, and is not final: its FAULT is never
cleared and never overwritten (60_exceptions.md section 4). -/
def Obligations.FaultEndsTheRun : Prop :=
  ∀ s : State, Inv s → s.fault ≠ none →
    s.isFaulted ∧ ¬ s.isFinal ∧ ∀ n : Nat, core.run (n + 1) s = .fault .haltedHasNoStep

/-! ## Rules about the whole machine -/

/-- No ALU instruction but CMP changes FL, CMP changes no register, and FL persists until the next compare: no instruction
but CMP changes it (R83). -/
def Obligations.OnlyCmpWritesFlags : Prop :=
  ∀ (i : Instr) (s t : State), exec i s = .next t →
    (i.op ≠ .cmp → t.fl = s.fl) ∧ (i.op = .cmp → t.regs = s.regs)

/-- OUT is extended by one byte, the named register's, by PRN, and by nothing else (10_state.md section 6). -/
def Obligations.OnlyPrnWritesOutput : Prop :=
  ∀ (i : Instr) (s t : State), exec i s = .next t →
    t.out = s.out ∨ ∃ b r, i = .prn b ∧ regIdx b = some r ∧ t.out = s.out ++ [s.reg r]

/-- Only PUSH and CALL store to memory, and they store to the address the push gives; all other memory reads as before
(20_memory.md section 1). -/
def Obligations.OnlyPushAndCallWriteMemory : Prop :=
  ∀ (i : Instr) (s t : State), exec i s = .next t →
    (i.op ∉ [Op.push, .call] → sameMem s t) ∧
    (s.pushAddr = none → sameMem s t) ∧ ∀ a, s.pushAddr = some a → sameMemBut a s t

/-- An instruction writes no register but those the spec's table lists for it (10_state.md section 2). -/
def Obligations.RegistersWrittenByEachInstruction : Prop :=
  ∀ (i : Instr) (s t : State), exec i s = .next t → sameRegsBut (writtenRegs i) s t

/-- A running core halts only by HLT or by a fault, and the two endings are told apart by FAULT (40_step_cycle.md section 4). -/
def Obligations.HaltsOnlyByHltOrFault : Prop :=
  ∀ s t : State, s.fault = none → step s = .next t →
    (t.isFinal ↔ s.pc.toNat ≤ 255 ∧ s.mem.read s.pc.toNat = opcodeTable .hlt) ∧
    (t.isFaulted ↔ t.fault ≠ none) ∧ (t.run = .running ↔ ¬ t.isFinal ∧ ¬ t.isFaulted)

/-- The reset state is legal (10_state.md section 7). That PC and FL are 0 and FAULT is none after reset is spec decision D3
(log 2); the form of memory is the model's (log 19). -/
def Obligations.ResetStateIsLegal : Prop := Inv State.reset

/-- Every step from a legal state leads to a legal state: memory stays canonical, PC stays in 0..256, FL stays 0, 1, 2 or
4, a recorded fault stays one that the table of faults allows, in a halted core, and ALU_FAULT is never raised
(95_test_vectors.md section 4, items 1, 2 and 8). PC's range is spec decision D2 (log 3), bits 7:3 of FL are D26 (log 8);
that the record's pc is PC is D11 (log 12), the kinds are D13 (log 14), which addresses and data a record can hold follows
D8, D9 and D22 (log 9, log 10, log 16); the form of memory is the model's (log 19). -/
def Obligations.EveryStepKeepsStatesLegal : Prop :=
  ∀ s t : State, Inv s → step s = .next t → Inv t

/-- Every state that any run of any image reaches is legal (10_state.md sections 3 and 4, 40_step_cycle.md section 4). It rests
on what the statement about one step rests on: spec decisions D2 (log 3), D26 (log 8), D8, D9, D11, D13 and D22 (log 9,
log 10, log 12, log 14, log 16) and the form of memory (log 19); on the reset values of D3 (log 2); and on the largest
image, D18 (log 18). -/
def Obligations.EveryReachableStateIsLegal : Prop :=
  ∀ (image : List Byte) (s : State), State.init image = some s →
    ∀ (n : Nat) (t : State), core.run n s = .next t → Inv t

/-- A run is never refused, and when it stops it stops in a state that is final or faulted, which it reached by steps
(40_step_cycle.md section 4). That a halted state's missing step is the model's own fault outcome is log 5. -/
def Obligations.RunsStopOnlyInAFinalOrFaultedState : Prop :=
  ∀ (s : State) (n : Nat), (∀ r, core.run n s ≠ .refused r) ∧
    ∀ r, core.run n s = .fault r → ∃ k t, k < n ∧ core.run k s = .next t ∧ (t.isFinal ∨ t.isFaulted)

/-- Flags G and L are read by nothing: two states that agree on all but bits 7:1 of FL run alike, step by step, and agree
at every step on all but those bits (44_control.md section 3). -/
def Obligations.GreaterAndLessAreInvisible : Prop :=
  ∀ s s' : State, sameButGL s s' → ∀ (n : Nat) (t : State), core.run n s = .next t →
    ∃ t', core.run n s' = .next t' ∧ sameButGL t t'

/-- IR cannot be read as data: where the opcode byte can be fetched, the step does not depend on IR's old value
(10_state.md section 5). -/
def Obligations.OldIrIsInvisible : Prop :=
  ∀ (s : State) (x : Byte), s.pc.toNat ≤ 255 → step { s with ir := x } = step s

/-- OUT cannot be read back: bytes already emitted stay at its front and change nothing else in a run (10_state.md
section 6). -/
def Obligations.OutputIsNeverReadBack : Prop :=
  ∀ (s t : State) (p : List Byte) (n : Nat), core.run n s = .next t →
    core.run n { s with out := p ++ s.out } = .next { t with out := p ++ t.out }

/-! ## Sequences of instructions -/

/-- Pushing one register and popping into another gives the second the first one's value and restores the stack pointer,
for registers other than 7 and a pointer other than 0 (43_stack.md section 4). -/
def Obligations.PushThenPopCopiesTheRegister : Prop :=
  ∀ (s : State) (b c : Byte) (r q : RegIx), b.toNat = r.val → c.toNat = q.val → r ≠ 7 → q ≠ 7 → s.mem.wf = true →
    s.reg 7 ≠ 0x00 →
    ∃ t, execSeq [.push b, .pop c] s = .next t ∧ t.reg q = s.reg r ∧ t.reg 7 = s.reg 7

/-- CALL then RET: PC is past the CALL and the stack pointer is restored (44_control.md section 2). -/
def Obligations.CallThenRetReturns : Prop :=
  ∀ (s : State) (b : Byte), b.toNat ≤ 7 → s.mem.wf = true → s.pc.toNat ≤ 253 → s.reg 7 ≠ 0x00 →
    ∃ t, execSeq [.call b, .ret] s = .next t ∧ t.pc = s.pc + 2 ∧ t.reg 7 = s.reg 7

/-- LDI then PRN emits exactly the byte loaded, for every byte and every register (41_system_data.md). -/
def Obligations.LdiThenPrnEmitsTheByte : Prop :=
  ∀ (s : State) (b v : Byte), b.toNat ≤ 7 →
    ∃ t, execSeq [.ldi b v, .prn b] s = .next t ∧ t.out = s.out ++ [v]

/-- CMP then JEQ jumps exactly when the two values are equal, CMP then JNE exactly when they differ; otherwise PC is past
both instructions (44_control.md section 2). -/
def Obligations.CmpDecidesTheConditionalJumps : Prop :=
  ∀ (s : State) (a b c : Byte) (x y z : RegIx), a.toNat = x.val → b.toNat = y.val → c.toNat = z.val →
    (∃ t, execSeq [.cmp a b, .jeq c] s = .next t ∧
      t.pc = if s.reg x = s.reg y then zext9 (s.reg z) else s.pc + 3 + 2) ∧
    (∃ t, execSeq [.cmp a b, .jne c] s = .next t ∧
      t.pc = if s.reg x = s.reg y then s.pc + 3 + 2 else zext9 (s.reg z))

/-- As many pushes succeed as the stack pointer says and the next one faults, with no limit of the core's own: 244 from the
reset value of the pointer (43_stack.md section 3; spec decisions D8 and D19, log 9, log 23). The pushes are executed by
their meaning one after another, with no fetch between them. Where they can lie at ascending addresses of memory, the last
of them at 254 at most, the record's pc is the address of the last one. -/
def Obligations.StackDepthIsTheStackPointer : Prop :=
  ∀ (s : State) (b : Byte), b.toNat ≤ 7 → s.fault = none →
    (∀ n, n ≤ (s.reg 7).toNat → ∃ t, execSeq (List.replicate n (.push b)) s = .next t ∧
      (t.reg 7).toNat = (s.reg 7).toNat - n ∧ t.fault = none) ∧
    (∃ t pc, execSeq (List.replicate ((s.reg 7).toNat + 1) (.push b)) s = .next t ∧
      t.fault = some ⟨.boundsStackLow, pc, 0x00⟩ ∧
      (s.pc.toNat + 2 * (s.reg 7).toNat ≤ 254 → pc.toNat = s.pc.toNat + 2 * (s.reg 7).toNat))

/-- A store is seen by the next fetch: when a running core executes PUSH from memory and stores over the first byte of the
next instruction, or executes CALL r7 and jumps to the byte it has just stored, the next step fetches the stored byte
(20_memory.md section 3). What PUSH r7 stores and where CALL r7 jumps is spec decision D10 (log 11). -/
def Obligations.StoreIsSeenByTheNextFetch : Prop :=
  ∀ (s : State) (rest : List Byte) (a : Byte), s.run = .running → s.mem.wf = true → s.pushAddr = some a →
    (∀ (b : Byte) (r : RegIx), b.toNat = r.val → decode s.codeBytes = .ok (.push b) rest →
      a.toNat = s.pc.toNat + 2 →
      ∃ t u, step s = .next t ∧ step t = .next u ∧ u.ir = if r = 7 then a else s.reg r) ∧
    (s.pc.toNat ≤ 253 → decode s.codeBytes = .ok (.call 7) rest →
      ∃ t u, step s = .next t ∧ step t = .next u ∧ u.ir.toNat = s.pc.toNat + 2)

/-! ## Interface -/

/-- The fault signals (10_state.md section 9, 60_exceptions.md section 1): `fault_valid` is 1 exactly when FAULT is not
none, `fault_kind` is 0 exactly when it is none, and different kinds have different codes, 1 to 7. The codes are spec decision
D13 (log 14). -/
def Obligations.FaultSignalsShowTheRecord : Prop :=
  (∀ s : State, (s.faultValidPin = true ↔ s.fault ≠ none) ∧ (s.faultKindPin = 0 ↔ s.fault = none) ∧
    ∀ f, s.fault = some f → s.faultKindPin = f.kind.code ∧ s.faultPins = some (f.pc, f.info)) ∧
  (∀ k k' : FaultKind, k.code = k'.code → k = k') ∧
  ([FaultKind.unsupportedInstruction, .boundsFetch, .boundsRegister, .boundsStackLow, .boundsStackHigh,
    .boundsReturnAddress, .aluFault].map FaultKind.code = [1, 2, 3, 4, 5, 6, 7])
end

