-- ==== Sys2Proof/Laws/Decode.lean ====
section
/-!
SUPPORT. What the table lookup and the operand bytes of the decoder can come to (spec/30_encoding.md R45, R47).
-/

namespace Sys2Proof

theorem Op.mem_all (o : Op) : o ∈ Op.all := by cases o <;> decide

/-- A lookup that answers answers a row whose byte is the one looked up. -/
theorem lookupOp_some {t : OpcodeTable} {b : Byte} {o : Op} (h : lookupOp t b = some o) : t o = b := by
  simpa using List.find?_some h

/-- A lookup that fails says that the byte is in no row. -/
theorem lookupOp_none {t : OpcodeTable} {b : Byte} (h : lookupOp t b = none) (o : Op) : t o ≠ b := by
  have := List.find?_eq_none.1 h o (Op.mem_all o)
  simpa using this

/-- In a table of distinct bytes every row is found. -/
theorem lookupOp_distinct {t : OpcodeTable} (ht : tableDistinct t) (o : Op) : lookupOp t (t o) = some o := by
  cases h : lookupOp t (t o) with
  | none => exact absurd rfl (lookupOp_none h o)
  | some o' => rw [ht o' o (lookupOp_some h)]

/-- Everything the operand bytes can come to: an instruction of that row whose operands were taken, in order, or the first
operand that is not there. -/
theorem takeOperands_cases (o : Op) (rest : List Byte) :
    (∃ i rest', takeOperands o rest = .ok i rest' ∧ i.op = o ∧ rest = i.operands ++ rest') ∨
      (rest.length < o.operandCount ∧ takeOperands o rest = .missingOperand (rest.length + 1)) := by
  rcases rest with _ | ⟨a, _ | ⟨b, rest⟩⟩ <;> cases o <;>
    first
      | exact .inl ⟨_, _, rfl, rfl, rfl⟩
      | exact .inr ⟨Nat.lt_of_lt_of_eq (Nat.lt_succ_self _) rfl, rfl⟩
      | exact .inr ⟨Nat.zero_lt_two, rfl⟩

/-- The operand bytes of an instruction are as many as its row has. -/
theorem Instr.operands_length (i : Instr) : i.operands.length = i.op.operandCount := by cases i <;> rfl

end Sys2Proof
end

