-- ==== Sys2Proof/Laws/State.lean ====
section
/-!
SUPPORT. One lemma per field and update of the state: what the named updates of Sys2Proof/Machine/Ops.lean write and what
they leave, so that no later proof unfolds a record update.
-/

namespace Sys2Proof.Machine

variable (s : State)

/-! ### `setReg` -/

@[simp] theorem State.setReg_regs (i : RegIx) (v : Byte) : (s.setReg i v).regs = s.regs.set i v := rfl
@[simp] theorem State.setReg_pc (i : RegIx) (v : Byte) : (s.setReg i v).pc = s.pc := rfl
@[simp] theorem State.setReg_fl (i : RegIx) (v : Byte) : (s.setReg i v).fl = s.fl := rfl
@[simp] theorem State.setReg_ir (i : RegIx) (v : Byte) : (s.setReg i v).ir = s.ir := rfl
@[simp] theorem State.setReg_run (i : RegIx) (v : Byte) : (s.setReg i v).run = s.run := rfl
@[simp] theorem State.setReg_fault (i : RegIx) (v : Byte) : (s.setReg i v).fault = s.fault := rfl
@[simp] theorem State.setReg_mem (i : RegIx) (v : Byte) : (s.setReg i v).mem = s.mem := rfl
@[simp] theorem State.setReg_out (i : RegIx) (v : Byte) : (s.setReg i v).out = s.out := rfl

/-! ### `setSp` -/

@[simp] theorem State.setSp_regs (v : Byte) : (s.setSp v).regs = s.regs.set Config.spIndex v := rfl
@[simp] theorem State.setSp_pc (v : Byte) : (s.setSp v).pc = s.pc := rfl
@[simp] theorem State.setSp_fl (v : Byte) : (s.setSp v).fl = s.fl := rfl
@[simp] theorem State.setSp_ir (v : Byte) : (s.setSp v).ir = s.ir := rfl
@[simp] theorem State.setSp_run (v : Byte) : (s.setSp v).run = s.run := rfl
@[simp] theorem State.setSp_fault (v : Byte) : (s.setSp v).fault = s.fault := rfl
@[simp] theorem State.setSp_mem (v : Byte) : (s.setSp v).mem = s.mem := rfl
@[simp] theorem State.setSp_out (v : Byte) : (s.setSp v).out = s.out := rfl

/-! ### `advance` -/

@[simp] theorem State.advance_regs (n : Nat) : (s.advance n).regs = s.regs := rfl
@[simp] theorem State.advance_pc (n : Nat) : (s.advance n).pc = s.pc + BitVec.ofNat 9 n := rfl
@[simp] theorem State.advance_fl (n : Nat) : (s.advance n).fl = s.fl := rfl
@[simp] theorem State.advance_ir (n : Nat) : (s.advance n).ir = s.ir := rfl
@[simp] theorem State.advance_run (n : Nat) : (s.advance n).run = s.run := rfl
@[simp] theorem State.advance_fault (n : Nat) : (s.advance n).fault = s.fault := rfl
@[simp] theorem State.advance_mem (n : Nat) : (s.advance n).mem = s.mem := rfl
@[simp] theorem State.advance_out (n : Nat) : (s.advance n).out = s.out := rfl

/-! ### `jump` -/

@[simp] theorem State.jump_regs (b : Byte) : (s.jump b).regs = s.regs := rfl
@[simp] theorem State.jump_pc (b : Byte) : (s.jump b).pc = zext9 b := rfl
@[simp] theorem State.jump_fl (b : Byte) : (s.jump b).fl = s.fl := rfl
@[simp] theorem State.jump_ir (b : Byte) : (s.jump b).ir = s.ir := rfl
@[simp] theorem State.jump_run (b : Byte) : (s.jump b).run = s.run := rfl
@[simp] theorem State.jump_fault (b : Byte) : (s.jump b).fault = s.fault := rfl
@[simp] theorem State.jump_mem (b : Byte) : (s.jump b).mem = s.mem := rfl
@[simp] theorem State.jump_out (b : Byte) : (s.jump b).out = s.out := rfl

/-! ### `storeByte` -/

@[simp] theorem State.storeByte_regs (a v : Byte) : (s.storeByte a v).regs = s.regs := rfl
@[simp] theorem State.storeByte_pc (a v : Byte) : (s.storeByte a v).pc = s.pc := rfl
@[simp] theorem State.storeByte_fl (a v : Byte) : (s.storeByte a v).fl = s.fl := rfl
@[simp] theorem State.storeByte_ir (a v : Byte) : (s.storeByte a v).ir = s.ir := rfl
@[simp] theorem State.storeByte_run (a v : Byte) : (s.storeByte a v).run = s.run := rfl
@[simp] theorem State.storeByte_fault (a v : Byte) : (s.storeByte a v).fault = s.fault := rfl
@[simp] theorem State.storeByte_mem (a v : Byte) : (s.storeByte a v).mem = s.mem.write a.toNat v := rfl
@[simp] theorem State.storeByte_out (a v : Byte) : (s.storeByte a v).out = s.out := rfl

/-! ### `emit` -/

@[simp] theorem State.emit_regs (v : Byte) : (s.emit v).regs = s.regs := rfl
@[simp] theorem State.emit_pc (v : Byte) : (s.emit v).pc = s.pc := rfl
@[simp] theorem State.emit_fl (v : Byte) : (s.emit v).fl = s.fl := rfl
@[simp] theorem State.emit_ir (v : Byte) : (s.emit v).ir = s.ir := rfl
@[simp] theorem State.emit_run (v : Byte) : (s.emit v).run = s.run := rfl
@[simp] theorem State.emit_fault (v : Byte) : (s.emit v).fault = s.fault := rfl
@[simp] theorem State.emit_mem (v : Byte) : (s.emit v).mem = s.mem := rfl
@[simp] theorem State.emit_out (v : Byte) : (s.emit v).out = s.out ++ [v] := rfl

/-! ### `halt` -/

@[simp] theorem State.halt_regs : (s.halt).regs = s.regs := rfl
@[simp] theorem State.halt_pc : (s.halt).pc = s.pc := rfl
@[simp] theorem State.halt_fl : (s.halt).fl = s.fl := rfl
@[simp] theorem State.halt_ir : (s.halt).ir = s.ir := rfl
@[simp] theorem State.halt_run : (s.halt).run = .halted := rfl
@[simp] theorem State.halt_fault : (s.halt).fault = s.fault := rfl
@[simp] theorem State.halt_mem : (s.halt).mem = s.mem := rfl
@[simp] theorem State.halt_out : (s.halt).out = s.out := rfl

/-! ### `raise` -/

@[simp] theorem State.raise_regs (k : FaultKind) (info : Word9) : (s.raise k info).regs = s.regs := rfl
@[simp] theorem State.raise_pc (k : FaultKind) (info : Word9) : (s.raise k info).pc = s.pc := rfl
@[simp] theorem State.raise_fl (k : FaultKind) (info : Word9) : (s.raise k info).fl = s.fl := rfl
@[simp] theorem State.raise_ir (k : FaultKind) (info : Word9) : (s.raise k info).ir = s.ir := rfl
@[simp] theorem State.raise_run (k : FaultKind) (info : Word9) : (s.raise k info).run = .halted := rfl
@[simp] theorem State.raise_fault (k : FaultKind) (info : Word9) : (s.raise k info).fault = some ⟨k, s.pc, info⟩ := rfl
@[simp] theorem State.raise_mem (k : FaultKind) (info : Word9) : (s.raise k info).mem = s.mem := rfl
@[simp] theorem State.raise_out (k : FaultKind) (info : Word9) : (s.raise k info).out = s.out := rfl

/-! ### The register read -/

@[simp] theorem State.reg_regs (i : RegIx) : s.regs.get i = s.reg i := rfl
@[simp] theorem State.advance_reg (n : Nat) (j : RegIx) : (s.advance n).reg j = s.reg j := rfl
@[simp] theorem State.jump_reg (b : Byte) (j : RegIx) : (s.jump b).reg j = s.reg j := rfl
@[simp] theorem State.storeByte_reg (a v : Byte) (j : RegIx) : (s.storeByte a v).reg j = s.reg j := rfl
@[simp] theorem State.emit_reg (v : Byte) (j : RegIx) : (s.emit v).reg j = s.reg j := rfl
@[simp] theorem State.halt_reg (j : RegIx) : (s.halt).reg j = s.reg j := rfl
@[simp] theorem State.raise_reg (k : FaultKind) (info : Word9) (j : RegIx) : (s.raise k info).reg j = s.reg j := rfl

/-- A register reads back what was written to it, and the others keep their values (R12). -/
theorem RegFile.get_set (f : RegFile) (i j : RegIx) (v : Byte) :
    (f.set i v).get j = if j = i then v else f.get j := by
  fin_cases i <;> fin_cases j <;> rfl

theorem State.setReg_reg (i j : RegIx) (v : Byte) : (s.setReg i v).reg j = if j = i then v else s.reg j :=
  RegFile.get_set s.regs i j v

theorem State.setSp_reg (j : RegIx) (v : Byte) : (s.setSp v).reg j = if j = 7 then v else s.reg j :=
  RegFile.get_set s.regs 7 j v

@[simp] theorem State.setReg_reg_self (i : RegIx) (v : Byte) : (s.setReg i v).reg i = v := by
  simp [State.setReg_reg]

@[simp] theorem State.setSp_reg_self (v : Byte) : (s.setSp v).reg 7 = v := by
  simp [State.setSp_reg]

theorem State.sp_eq : s.sp = s.reg 7 := rfl

end Sys2Proof.Machine
end

