-- ==== Sys2Proof/Laws/Ops.lean ====
section
/-!
SUPPORT. One lemma for each shared operation of the meanings that says everything it can do: the register operand
(spec/10_state.md R14), a push and a pop (spec/43_stack.md R93), and the ALU's write (spec/42_alu.md R75).
-/

namespace Sys2Proof.Machine

/-! ### The register operand -/

/-- `RegIdx` answers the register whose index the byte is, and nothing else. -/
theorem regIdx_eq_some_iff (b : Byte) (r : RegIx) : regIdx b = some r ↔ b.toNat = r.val := by
  unfold regIdx
  split
  · rw [Option.some.injEq, Fin.ext_iff]
  · rename_i h
    exact ⟨(nomatch ·), fun hb => absurd (hb ▸ r.isLt) h⟩

theorem regIdx_eq_none_iff (b : Byte) : regIdx b = none ↔ 7 < b.toNat := by
  unfold regIdx
  split
  · rename_i h
    exact ⟨(nomatch ·), fun hb => by omega⟩
  · rename_i h
    exact ⟨fun _ => by omega, fun _ => rfl⟩

/-- A legal byte names exactly one register. -/
theorem regIdx_legal {b : Byte} (h : b.toNat ≤ 7) : ∃ r : RegIx, regIdx b = some r ∧ b.toNat = r.val :=
  ⟨⟨b.toNat, by omega⟩, (regIdx_eq_some_iff b _).2 rfl, rfl⟩

theorem withReg_legal {b : Byte} {r : RegIx} (h : b.toNat = r.val) (s : State) (k : RegIx → Result) :
    withReg b s k = k r := by
  simp only [withReg, (regIdx_eq_some_iff b r).2 h]

theorem withReg_illegal {b : Byte} (h : 7 < b.toNat) (s : State) (k : RegIx → Result) :
    withReg b s k = .next (s.raise .boundsRegister (zext9 b)) := by
  simp only [withReg, (regIdx_eq_none_iff b).2 h]

/-- Everything a register operand can come to: the rest runs with the register, or BOUNDS_REGISTER is raised. -/
theorem withReg_cases (b : Byte) (s : State) (k : RegIx → Result) :
    (∃ r : RegIx, regIdx b = some r ∧ b.toNat = r.val ∧ withReg b s k = k r) ∨
      (regIdx b = none ∧ 7 < b.toNat ∧ withReg b s k = .next (s.raise .boundsRegister (zext9 b))) := by
  rcases Nat.lt_or_ge 7 b.toNat with h | h
  · exact .inr ⟨(regIdx_eq_none_iff b).2 h, h, withReg_illegal h s k⟩
  · obtain ⟨r, hr, hb⟩ := regIdx_legal h
    exact .inl ⟨r, hr, hb, withReg_legal hb s k⟩

/-! ### The stack protocol -/

theorem State.pushAddr_zero {s : State} (h : s.reg 7 = 0x00) : s.pushAddr = none := if_pos h

theorem State.pushAddr_pos {s : State} (h : s.reg 7 ≠ 0x00) : s.pushAddr = some (s.reg 7 - 1) := if_neg h

theorem State.pushAddr_eq_some_iff (s : State) (a : Byte) : s.pushAddr = some a ↔ s.reg 7 ≠ 0x00 ∧ a = s.reg 7 - 1 := by
  by_cases h : s.reg 7 = 0x00
  · rw [State.pushAddr_zero h]
    exact ⟨(nomatch ·), fun hn => absurd h hn.1⟩
  · rw [State.pushAddr_pos h, Option.some.injEq]
    exact ⟨fun e => ⟨h, e.symm⟩, fun e => e.2.symm⟩

theorem byte_pred_toNat {b : Byte} (h : b ≠ 0x00) : (b - 1).toNat + 1 = b.toNat := by
  have : b.toNat ≠ 0 := fun hn => h (BitVec.eq_of_toNat_eq hn)
  bv_omega

theorem byte_succ_toNat {b : Byte} (h : b ≠ 0xFF) : (b + 1).toNat = b.toNat + 1 := by
  have : b.toNat ≠ 255 := fun hn => h (BitVec.eq_of_toNat_eq hn)
  bv_omega

/-- Everything the beginning of a push can come to (R93). -/
theorem withPush_cases (s : State) (k : Byte → State → Result) :
    (s.reg 7 ≠ 0x00 ∧ s.pushAddr = some (s.reg 7 - 1) ∧
        withPush s k = k (s.reg 7 - 1) (s.setSp (s.reg 7 - 1))) ∨
      (s.reg 7 = 0x00 ∧ s.pushAddr = none ∧ withPush s k = .next (s.raise .boundsStackLow 0x00)) := by
  by_cases h : s.reg 7 = 0x00
  · refine .inr ⟨h, State.pushAddr_zero h, ?_⟩
    simp only [withPush, State.pushAddr_zero h, State.sp_eq, h]
    rfl
  · refine .inl ⟨h, State.pushAddr_pos h, ?_⟩
    simp only [withPush, State.pushAddr_pos h]

/-- Everything the end of a pop can come to (R93). -/
theorem withPopped_cases (t : Byte) (s : State) (k : Byte → Result) :
    (t ≠ 0xFF ∧ withPopped t s k = k (t + 1)) ∨
      (t = 0xFF ∧ withPopped t s k = .next (s.raise .boundsStackHigh 0xFF)) := by
  by_cases h : t = 0xFF
  · subst h
    exact .inr ⟨rfl, rfl⟩
  · exact .inl ⟨h, if_neg h⟩

/-! ### The ALU's write -/

@[simp] theorem State.putAlu_result (s : State) (x : RegIx) (v : Byte) : s.putAlu x (.result v) = s.setReg x v := rfl

@[simp] theorem State.putAlu_flags (s : State) (x : RegIx) (f : Byte) : s.putAlu x (.flags f) = { s with fl := f } := rfl

/-- Everything the common form of the ALU instructions can come to. -/
theorem aluInstr_cases (k : AluKind) (a b : Byte) (s : State) :
    (∃ x y : RegIx, regIdx a = some x ∧ a.toNat = x.val ∧ regIdx b = some y ∧ b.toNat = y.val ∧
        aluInstr k a b s = .next ((s.putAlu x (alu k (s.reg x) (s.reg y))).advance 3)) ∨
      (7 < a.toNat ∧ aluInstr k a b s = .next (s.raise .boundsRegister (zext9 a))) ∨
      (a.toNat ≤ 7 ∧ 7 < b.toNat ∧ aluInstr k a b s = .next (s.raise .boundsRegister (zext9 b))) := by
  unfold aluInstr withRegs
  rcases withReg_cases a s (fun ra => withReg b s fun rb =>
      .next ((s.putAlu ra (alu k (s.reg ra) (s.reg rb))).advance 3)) with ⟨x, hx, hax, h⟩ | ⟨-, ha, h⟩
  · rcases withReg_cases b s (fun rb => .next ((s.putAlu x (alu k (s.reg x) (s.reg rb))).advance 3))
      with ⟨y, hy, hby, h'⟩ | ⟨-, hb, h'⟩
    · exact .inl ⟨x, y, hx, hax, hy, hby, h.trans h'⟩
    · exact .inr (.inr ⟨by omega, hb, h.trans h'⟩)
  · exact .inr (.inl ⟨ha, h⟩)

/-! ### Raising a fault -/

/-- Raising a fault writes RUN and FAULT and nothing else (R116). -/
theorem State.raise_eq (s : State) (k : FaultKind) (info : Word9) : s.raise k info = faultedFrom s k info := rfl

end Sys2Proof.Machine
end

