-- ==== Sys2Proof/Laws/Exec.lean ====
section
/-!
SUPPORT. One lemma per instruction that says once everything its meaning can come to: its effect, or the fault it raises
(spec/41_system_data.md to spec/44_control.md). Later proofs split on these and do not unfold the meanings.
-/

namespace Sys2Proof.Machine

theorem execLdi_cases (b v : Byte) (s : State) :
    (∃ r : RegIx, regIdx b = some r ∧ b.toNat = r.val ∧ exec (.ldi b v) s = .next ((s.setReg r v).advance 3)) ∨
      (7 < b.toNat ∧ exec (.ldi b v) s = .next (s.raise .boundsRegister (zext9 b))) := by
  rcases withReg_cases b s (fun x => .next ((s.setReg x v).advance 3)) with ⟨r, hr, hb, h⟩ | ⟨-, hb, h⟩
  · exact .inl ⟨r, hr, hb, h⟩
  · exact .inr ⟨hb, h⟩

theorem execPrn_cases (b : Byte) (s : State) :
    (∃ r : RegIx, regIdx b = some r ∧ b.toNat = r.val ∧ exec (.prn b) s = .next ((s.emit (s.reg r)).advance 2)) ∨
      (7 < b.toNat ∧ exec (.prn b) s = .next (s.raise .boundsRegister (zext9 b))) := by
  rcases withReg_cases b s (fun x => .next ((s.emit (s.reg x)).advance 2)) with ⟨r, hr, hb, h⟩ | ⟨-, hb, h⟩
  · exact .inl ⟨r, hr, hb, h⟩
  · exact .inr ⟨hb, h⟩

/-- What PUSH comes to (R91). -/
theorem execPush_cases (b : Byte) (s : State) :
    (∃ r : RegIx, regIdx b = some r ∧ b.toNat = r.val ∧ s.reg 7 ≠ 0x00 ∧ s.pushAddr = some (s.reg 7 - 1) ∧
        exec (.push b) s = .next (((s.setSp (s.reg 7 - 1)).storeByte (s.reg 7 - 1)
          (if r = 7 then s.reg 7 - 1 else s.reg r)).advance 2)) ∨
      (7 < b.toNat ∧ exec (.push b) s = .next (s.raise .boundsRegister (zext9 b))) ∨
      (b.toNat ≤ 7 ∧ s.reg 7 = 0x00 ∧ s.pushAddr = none ∧
        exec (.push b) s = .next (s.raise .boundsStackLow 0x00)) := by
  rcases withReg_cases b s (fun x => withPush s fun a t => .next ((t.storeByte a (t.reg x)).advance 2))
    with ⟨r, hr, hb, h⟩ | ⟨-, hb, h⟩
  · rcases withPush_cases s (fun a t => .next ((t.storeByte a (t.reg r)).advance 2)) with ⟨hs, ha, h'⟩ | ⟨hs, ha, h'⟩
    · refine .inl ⟨r, hr, hb, hs, ha, (h.trans h').trans ?_⟩
      rw [State.setSp_reg]
    · exact .inr (.inr ⟨by omega, hs, ha, h.trans h'⟩)
  · exact .inr (.inl ⟨hb, h⟩)

/-- What POP comes to (R92). -/
theorem execPop_cases (b : Byte) (s : State) :
    (∃ r : RegIx, regIdx b = some r ∧ b.toNat = r.val ∧
        ((popPointer r s ≠ 0xFF ∧ exec (.pop b) s =
            .next (((s.setReg r (s.mem.read (s.reg 7).toNat)).setSp (popPointer r s + 1)).advance 2)) ∨
          (popPointer r s = 0xFF ∧ exec (.pop b) s = .next (s.raise .boundsStackHigh 0xFF)))) ∨
      (7 < b.toNat ∧ exec (.pop b) s = .next (s.raise .boundsRegister (zext9 b))) := by
  rcases withReg_cases b s (fun x => withPopped (popPointer x s) s fun sp' =>
      .next (((s.setReg x (s.loadByte s.sp)).setSp sp').advance 2)) with ⟨r, hr, hb, h⟩ | ⟨-, hb, h⟩
  · rcases withPopped_cases (popPointer r s) s
      (fun sp' => .next (((s.setReg r (s.loadByte s.sp)).setSp sp').advance 2)) with ⟨hp, h'⟩ | ⟨hp, h'⟩
    · exact .inl ⟨r, hr, hb, .inl ⟨hp, h.trans h'⟩⟩
    · exact .inl ⟨r, hr, hb, .inr ⟨hp, h.trans h'⟩⟩
  · exact .inr ⟨hb, h⟩

theorem popPointer_seven (s : State) : popPointer 7 s = s.mem.read (s.reg 7).toNat := rfl

theorem popPointer_ne {r : RegIx} (h : r ≠ 7) (s : State) : popPointer r s = s.reg 7 := if_neg h

/-- What CALL comes to (R96). -/
theorem execCall_cases (b : Byte) (s : State) :
    (∃ r : RegIx, regIdx b = some r ∧ b.toNat = r.val ∧ s.pc.toNat ≤ 253 ∧ s.reg 7 ≠ 0x00 ∧
        s.pushAddr = some (s.reg 7 - 1) ∧
        exec (.call b) s = .next (((s.setSp (s.reg 7 - 1)).storeByte (s.reg 7 - 1) (trunc8 (s.pc.toNat + 2))).jump
          (if r = 7 then s.reg 7 - 1 else s.reg r))) ∨
      (7 < b.toNat ∧ exec (.call b) s = .next (s.raise .boundsRegister (zext9 b))) ∨
      (b.toNat ≤ 7 ∧ 253 < s.pc.toNat ∧
        exec (.call b) s = .next (s.raise .boundsReturnAddress (BitVec.ofNat 9 (s.pc.toNat + 2)))) ∨
      (b.toNat ≤ 7 ∧ s.pc.toNat ≤ 253 ∧ s.reg 7 = 0x00 ∧ s.pushAddr = none ∧
        exec (.call b) s = .next (s.raise .boundsStackLow 0x00)) := by
  rcases withReg_cases b s (fun x =>
      if returnAddr s > 255 then .next (s.raise .boundsReturnAddress (BitVec.ofNat 9 (returnAddr s)))
      else withPush s fun a t => .next ((t.storeByte a (trunc8 (returnAddr s))).jump (t.reg x)))
    with ⟨r, hr, hb, h⟩ | ⟨-, hb, h⟩
  · rcases Nat.lt_or_ge 253 s.pc.toNat with hp | hp
    · have hra : returnAddr s > 255 := by unfold returnAddr; omega
      exact .inr (.inr (.inl ⟨by omega, hp, h.trans (if_pos hra)⟩))
    · have hra : ¬ returnAddr s > 255 := by unfold returnAddr; omega
      rcases withPush_cases s (fun a t => .next ((t.storeByte a (trunc8 (returnAddr s))).jump (t.reg r)))
        with ⟨hs, ha, h'⟩ | ⟨hs, ha, h'⟩
      · refine .inl ⟨r, hr, hb, hp, hs, ha, ((h.trans (if_neg hra)).trans h').trans ?_⟩
        rw [State.setSp_reg]
        rfl
      · exact .inr (.inr (.inr ⟨by omega, hp, hs, ha, (h.trans (if_neg hra)).trans h'⟩))
  · exact .inr (.inl ⟨hb, h⟩)

/-- What RET comes to (R97). -/
theorem execRet_cases (s : State) :
    (s.reg 7 ≠ 0xFF ∧ exec .ret s =
        .next ((s.setSp (s.reg 7 + 1)).jump (s.mem.read (s.reg 7).toNat))) ∨
      (s.reg 7 = 0xFF ∧ exec .ret s = .next (s.raise .boundsStackHigh 0xFF)) :=
  withPopped_cases s.sp s (fun sp' => .next ((s.setSp sp').jump (s.loadByte s.sp)))

theorem execJmp_cases (b : Byte) (s : State) :
    (∃ r : RegIx, regIdx b = some r ∧ b.toNat = r.val ∧ exec (.jmp b) s = .next (s.jump (s.reg r))) ∨
      (7 < b.toNat ∧ exec (.jmp b) s = .next (s.raise .boundsRegister (zext9 b))) := by
  rcases withReg_cases b s (fun x => .next (s.jump (s.reg x))) with ⟨r, hr, hb, h⟩ | ⟨-, hb, h⟩
  · exact .inl ⟨r, hr, hb, h⟩
  · exact .inr ⟨hb, h⟩

/-- What a conditional jump comes to (R99, R100). -/
theorem jumpIf_cases (c : Bool) (b : Byte) (s : State) :
    (∃ r : RegIx, regIdx b = some r ∧ b.toNat = r.val ∧
        jumpIf c b s = .next (if c then s.jump (s.reg r) else s.advance 2)) ∨
      (7 < b.toNat ∧ jumpIf c b s = .next (s.raise .boundsRegister (zext9 b))) := by
  rcases withReg_cases b s (fun x => .next (if c then s.jump (s.reg x) else s.advance 2))
    with ⟨r, hr, hb, h⟩ | ⟨-, hb, h⟩
  · exact .inl ⟨r, hr, hb, h⟩
  · exact .inr ⟨hb, h⟩

/-- The conditional jumps are the shared operation on the flag. -/
theorem exec_jeq_eq (b : Byte) (s : State) : exec (.jeq b) s = jumpIf (flagE s.fl) b s := rfl

theorem exec_jne_eq (b : Byte) (s : State) : exec (.jne b) s = jumpIf (!flagE s.fl) b s := rfl

end Sys2Proof.Machine
end

