-- ==== Sys2Proof/Laws/Memory.lean ====
section
/-!
SUPPORT. The laws of memory: what a read sees after a write, that every operation keeps the canonical form, and which
bytes the fetch window shows.
-/

namespace Sys2Proof.Machine

@[simp] theorem Memory.read_nil (a : Nat) : Memory.read [] a = 0x00 := rfl

/-- What the canonical form says of a list with a first entry. -/
theorem Memory.wfFrom_entry (lo a : Nat) (v : Byte) (m : Memory) :
    Memory.wfFrom lo ((a, v) :: m) = true ↔ lo ≤ a ∧ a < 256 ∧ v ≠ 0x00 ∧ Memory.wfFrom (a + 1) m = true := by
  rw [Memory.wfFrom, Bool.and_eq_true, Bool.and_eq_true, Bool.and_eq_true, decide_eq_true_iff, decide_eq_true_iff,
    decide_eq_true_iff, and_assoc, and_assoc]
  exact Iff.rfl

/-- An entry at the front, or left out because it says nothing, reads the same. -/
theorem Memory.read_cons (a b : Nat) (v : Byte) (m : Memory) (h : Memory.read m a = 0x00 ∨ v ≠ 0x00) :
    (Memory.cons a v m).read b = if b = a then v else m.read b := by
  unfold Memory.cons
  split
  · rename_i hv
    have hv0 : v = 0x00 := hv
    split
    · rename_i hb
      subst hb
      rcases h with h | h
      · rw [h, hv0]
      · exact absurd hv0 h
    · rfl
  · rfl

/-- In a canonical list an address below the first one allowed has no entry. -/
theorem Memory.read_below {m : Memory} {lo : Nat} (h : Memory.wfFrom lo m = true) {a : Nat} (ha : a < lo) :
    m.read a = 0x00 := by
  induction m generalizing lo with
  | nil => rfl
  | cons e m ih =>
    obtain ⟨b, w⟩ := e
    rw [Memory.wfFrom_entry] at h
    have hne : a ≠ b := by omega
    simp only [Memory.read, hne, if_false]
    exact ih h.2.2.2 (by omega)

/-- An address outside the address space has no entry. -/
theorem Memory.read_above {m : Memory} {lo : Nat} (h : Memory.wfFrom lo m = true) {a : Nat} (ha : 256 ≤ a) :
    m.read a = 0x00 := by
  induction m generalizing lo with
  | nil => rfl
  | cons e m ih =>
    obtain ⟨b, w⟩ := e
    rw [Memory.wfFrom_entry] at h
    have hne : a ≠ b := by omega
    simp only [Memory.read, hne, if_false]
    exact ih h.2.2.2

/-- A write leaves every other address alone, in any list (R32). -/
theorem Memory.read_write_ne (m : Memory) {a b : Nat} (v : Byte) (hb : b ≠ a) : (m.write a v).read b = m.read b := by
  induction m with
  | nil => rw [Memory.write, Memory.read_cons _ _ _ _ (.inl rfl), if_neg hb]
  | cons e m ih =>
    obtain ⟨c, w⟩ := e
    simp only [Memory.write]
    split
    · by_cases hv : v = Memory.unlisted <;> simp [Memory.cons, Memory.read, hv, hb]
    · split
      · rename_i hac
        subst hac
        by_cases hv : v = Memory.unlisted <;> simp [Memory.cons, Memory.read, hv, hb]
      · simp only [Memory.read]
        split
        · rfl
        · exact ih

/-- A write is read back, in a canonical list (R38). -/
theorem Memory.read_write_eq {m : Memory} {lo : Nat} (h : Memory.wfFrom lo m = true) (a : Nat) (v : Byte) :
    (m.write a v).read a = v := by
  induction m generalizing lo with
  | nil =>
    rw [Memory.write, Memory.read_cons _ _ _ _ (.inl rfl), if_pos rfl]
  | cons e m ih =>
    obtain ⟨c, w⟩ := e
    have h' := h
    rw [Memory.wfFrom_entry] at h
    simp only [Memory.write]
    split
    · rename_i hac
      have hz : Memory.read ((c, w) :: m) a = 0x00 := by
        have hne : a ≠ c := by omega
        simp only [Memory.read, hne, if_false]
        exact Memory.read_below h.2.2.2 (by omega)
      rw [Memory.read_cons _ _ _ _ (.inl hz), if_pos rfl]
    · split
      · rename_i hac
        subst hac
        rw [Memory.read_cons _ _ _ _ (.inl (Memory.read_below h.2.2.2 (by omega))), if_pos rfl]
      · rename_i hne
        simp only [Memory.read, hne, if_false]
        exact ih h.2.2.2

theorem Memory.wfFrom_mono {m : Memory} {lo lo' : Nat} (h : Memory.wfFrom lo m = true) (hl : lo' ≤ lo) :
    Memory.wfFrom lo' m = true := by
  cases m with
  | nil => rfl
  | cons e m =>
    obtain ⟨b, w⟩ := e
    rw [Memory.wfFrom_entry] at h ⊢
    exact ⟨by omega, h.2⟩

theorem Memory.wfFrom_cons {m : Memory} {a lo : Nat} (v : Byte) (h : Memory.wfFrom (a + 1) m = true) (hl : lo ≤ a)
    (ha : a < 256) : Memory.wfFrom lo (Memory.cons a v m) = true := by
  unfold Memory.cons
  split
  · exact Memory.wfFrom_mono h (by omega)
  · rename_i hv
    rw [Memory.wfFrom_entry]
    exact ⟨hl, ha, hv, h⟩

theorem Memory.wfFrom_write {m : Memory} {lo : Nat} (h : Memory.wfFrom lo m = true) {a : Nat} (v : Byte) (hl : lo ≤ a)
    (ha : a < 256) : Memory.wfFrom lo (m.write a v) = true := by
  induction m generalizing lo with
  | nil => exact Memory.wfFrom_cons v rfl hl ha
  | cons e m ih =>
    obtain ⟨c, w⟩ := e
    have h' := h
    rw [Memory.wfFrom_entry] at h
    simp only [Memory.write]
    split
    · refine Memory.wfFrom_cons v ?_ hl ha
      rw [Memory.wfFrom_entry]
      exact ⟨by omega, h.2⟩
    · split
      · rename_i hac
        subst hac
        exact Memory.wfFrom_cons v h.2.2.2 hl ha
      · rw [Memory.wfFrom_entry]
        exact ⟨h.1, h.2.1, h.2.2.1, ih h.2.2.2 (by omega)⟩

/-- A write in the address space keeps the canonical form. -/
theorem Memory.wf_write {m : Memory} (h : m.wf = true) {a : Nat} (v : Byte) (ha : a < 256) : (m.write a v).wf = true :=
  Memory.wfFrom_write h v (Nat.zero_le a) ha

/-- Reset memory is canonical. -/
theorem State.reset_mem_wf : State.reset.mem.wf = true := rfl

/-- A checked write that happens keeps the canonical form. -/
theorem Memory.wf_writeChecked {m m' : Memory} {a : Nat} {v : Byte} (h : m.wf = true)
    (hw : m.writeChecked a v = some m') : m'.wf = true := by
  unfold Memory.writeChecked at hw
  split at hw
  · rename_i ha
    cases hw
    exact Memory.wf_write h v ha
  · cases hw

/-- A byte address is in the address space, so a store keeps the canonical form. -/
theorem State.storeByte_wf {s : State} (h : s.mem.wf = true) (a v : Byte) : (s.storeByte a v).mem.wf = true :=
  Memory.wf_write h v a.isLt

/-- Placing bytes keeps the canonical form. -/
theorem State.placeBytes_wf {s : State} (h : s.mem.wf = true) (a : Nat) (l : List Byte) :
    (s.placeBytes a l).mem.wf = true := by
  induction l generalizing s a with
  | nil => exact h
  | cons b l ih =>
    simp only [State.placeBytes]
    split
    · rename_i m hm
      exact ih (s := { s with mem := m }) (Memory.wf_writeChecked h hm) (a + 1)
    · exact h

/-- Placing bytes changes nothing but memory. -/
theorem State.placeBytes_eq (s : State) (a : Nat) (l : List Byte) :
    s.placeBytes a l = { s with mem := (s.placeBytes a l).mem } := by
  induction l generalizing s a with
  | nil => rfl
  | cons b l ih =>
    simp only [State.placeBytes]
    split
    · rename_i m hm
      exact ih { s with mem := m } (a + 1)
    · rfl

/-! ### The fetch window -/

theorem Memory.readChecked_lt (m : Memory) {a : Nat} (h : a < 256) : m.readChecked a = some (m.read a) := if_pos h

theorem Memory.readChecked_ge (m : Memory) {a : Nat} (h : 256 ≤ a) : m.readChecked a = none :=
  if_neg (by simp only [Config.memSize]; omega)

theorem Memory.bytesFrom_ge (m : Memory) {a : Nat} (n : Nat) (h : 256 ≤ a) : m.bytesFrom a n = [] := by
  cases n with
  | zero => rfl
  | succ n => simp only [Memory.bytesFrom, Memory.readChecked_ge m h]

theorem Memory.bytesFrom_succ (m : Memory) {a : Nat} (n : Nat) (h : a < 256) :
    m.bytesFrom a (n + 1) = m.read a :: m.bytesFrom (a + 1) n := by
  simp only [Memory.bytesFrom, Memory.readChecked_lt m h]

/-- The four shapes of the fetch window: three bytes, or fewer at the top of memory (R35, R62, R64). -/
theorem State.codeBytes_cases (s : State) :
    (s.pc.toNat ≤ 253 ∧ s.codeBytes =
      [s.mem.read s.pc.toNat, s.mem.read (s.pc.toNat + 1), s.mem.read (s.pc.toNat + 2)]) ∨
    (s.pc.toNat = 254 ∧ s.codeBytes = [s.mem.read 254, s.mem.read 255]) ∨
    (s.pc.toNat = 255 ∧ s.codeBytes = [s.mem.read 255]) ∨ (256 ≤ s.pc.toNat ∧ s.codeBytes = []) := by
  unfold State.codeBytes
  rcases Nat.lt_or_ge s.pc.toNat 254 with h | h
  · exact .inl ⟨by omega, by
      rw [Memory.bytesFrom_succ _ _ (by omega), Memory.bytesFrom_succ _ _ (by omega),
        Memory.bytesFrom_succ _ _ (by omega)]; rfl⟩
  · rcases Nat.lt_or_ge s.pc.toNat 256 with h' | h'
    · have hc : s.pc.toNat = 254 ∨ s.pc.toNat = 255 := by omega
      rcases hc with hc | hc <;> rw [hc]
      · exact .inr (.inl ⟨rfl, by
          rw [Memory.bytesFrom_succ _ _ (by omega), Memory.bytesFrom_succ _ _ (by omega),
            Memory.bytesFrom_ge _ _ (by omega)]⟩)
      · exact .inr (.inr (.inl ⟨rfl, by
          rw [Memory.bytesFrom_succ _ _ (by omega), Memory.bytesFrom_ge _ _ (by omega)]⟩))
    · exact .inr (.inr (.inr ⟨h', Memory.bytesFrom_ge _ _ h'⟩))

/-- `IR <- Mem[PC]` where there is a byte at PC. -/
theorem State.loadIr_lt (s : State) (h : s.pc.toNat < 256) : s.loadIr = { s with ir := s.mem.read s.pc.toNat } := by
  simp only [State.loadIr, Memory.readChecked_lt s.mem h]

/-- IR keeps its value where there is none. -/
theorem State.loadIr_ge (s : State) (h : 256 ≤ s.pc.toNat) : s.loadIr = s := by
  simp only [State.loadIr, Memory.readChecked_ge s.mem h]

end Sys2Proof.Machine
end

