-- ==== Sys2Proof/Laws/PerInstr.lean ====
section
/-!
SUPPORT. A fact about each instruction as syntax, one lemma per constructor: its length is that of its encoding and at
most three bytes, and its register operands are the first of its operand bytes (spec/30_encoding.md R45).
-/

namespace Sys2Proof.Laws.Shape

/-- The shape of an instruction's encoding (R45). -/
def Statement (i : Instr) : Prop :=
  (encode i).length = i.length ∧ i.length ≤ 3 ∧ ∃ rest, i.operands = i.regOperands ++ rest

theorem hlt : Statement .hlt := ⟨rfl, by decide, [], rfl⟩
theorem ldi (r imm : Byte) : Statement (.ldi r imm) := ⟨rfl, Nat.le_refl 3, [imm], rfl⟩
theorem prn (r : Byte) : Statement (.prn r) := ⟨rfl, Nat.le_succ 2, [], rfl⟩
theorem add (a b : Byte) : Statement (.add a b) := ⟨rfl, Nat.le_refl 3, [], rfl⟩
theorem mul (a b : Byte) : Statement (.mul a b) := ⟨rfl, Nat.le_refl 3, [], rfl⟩
theorem cmp (a b : Byte) : Statement (.cmp a b) := ⟨rfl, Nat.le_refl 3, [], rfl⟩
theorem and (a b : Byte) : Statement (.and a b) := ⟨rfl, Nat.le_refl 3, [], rfl⟩
theorem or (a b : Byte) : Statement (.or a b) := ⟨rfl, Nat.le_refl 3, [], rfl⟩
theorem xor (a b : Byte) : Statement (.xor a b) := ⟨rfl, Nat.le_refl 3, [], rfl⟩
theorem push (r : Byte) : Statement (.push r) := ⟨rfl, Nat.le_succ 2, [], rfl⟩
theorem pop (r : Byte) : Statement (.pop r) := ⟨rfl, Nat.le_succ 2, [], rfl⟩
theorem call (r : Byte) : Statement (.call r) := ⟨rfl, Nat.le_succ 2, [], rfl⟩
theorem ret : Statement .ret := ⟨rfl, by decide, [], rfl⟩
theorem jmp (r : Byte) : Statement (.jmp r) := ⟨rfl, Nat.le_succ 2, [], rfl⟩
theorem jeq (r : Byte) : Statement (.jeq r) := ⟨rfl, Nat.le_succ 2, [], rfl⟩
theorem jne (r : Byte) : Statement (.jne r) := ⟨rfl, Nat.le_succ 2, [], rfl⟩

end Sys2Proof.Laws.Shape
end

