-- ==== Sys2Proof/Laws/Step.lean ====
section
/-!
SUPPORT. What the fetch parts of a step can come to, and what a step that answers a next state can have been
(spec/40_step_cycle.md R61 to R65).
-/

namespace Sys2Proof.Machine

/-- Everything fetch, decode and operand fetch can come to: an instruction to execute, or one of the three faults of the
dispatcher. -/
theorem fetch_cases (s : State) :
    (256 ≤ s.pc.toNat ∧ fetch s = .raised (s.raise .boundsFetch s.pc)) ∨
    (s.pc.toNat ≤ 255 ∧
      ((lookupOp opcodeTable (s.mem.read s.pc.toNat) = none ∧
          fetch s = .raised (({ s with ir := s.mem.read s.pc.toNat } : State).raise .unsupportedInstruction
            (zext9 (s.mem.read s.pc.toNat)))) ∨
        ∃ o, lookupOp opcodeTable (s.mem.read s.pc.toNat) = some o ∧
          ((256 ≤ s.pc.toNat + o.operandCount ∧
              fetch s = .raised (({ s with ir := s.mem.read s.pc.toNat } : State).raise .boundsFetch 256)) ∨
            (s.pc.toNat + o.operandCount ≤ 255 ∧ ∃ i rest, decode s.codeBytes = .ok i rest ∧ i.op = o ∧
              s.codeBytes.tail = i.operands ++ rest ∧ fetch s = .run i { s with ir := s.mem.read s.pc.toNat })))) := by
  have key : s.pc.toNat ≤ 255 → ∀ tl : List Byte, s.codeBytes = s.mem.read s.pc.toNat :: tl →
      (∀ o : Op, tl.length < o.operandCount ↔ 256 ≤ s.pc.toNat + o.operandCount) →
      (∀ o : Op, tl.length < o.operandCount → s.pc.toNat + (tl.length + 1) = 256) →
      (lookupOp opcodeTable (s.mem.read s.pc.toNat) = none ∧
          fetch s = .raised (({ s with ir := s.mem.read s.pc.toNat } : State).raise .unsupportedInstruction
            (zext9 (s.mem.read s.pc.toNat)))) ∨
        ∃ o, lookupOp opcodeTable (s.mem.read s.pc.toNat) = some o ∧
          ((256 ≤ s.pc.toNat + o.operandCount ∧
              fetch s = .raised (({ s with ir := s.mem.read s.pc.toNat } : State).raise .boundsFetch 256)) ∨
            (s.pc.toNat + o.operandCount ≤ 255 ∧ ∃ i rest, decode s.codeBytes = .ok i rest ∧ i.op = o ∧
              s.codeBytes.tail = i.operands ++ rest ∧ fetch s = .run i { s with ir := s.mem.read s.pc.toNat })) := by
    intro hpc tl hcb hlen hsum
    have hir := s.loadIr_lt (by omega)
    cases hl : lookupOp opcodeTable (s.mem.read s.pc.toNat) with
    | none =>
      refine .inl ⟨rfl, ?_⟩
      simp only [fetch, decode, hcb, decodeWith, hl, hir]
    | some o =>
      refine .inr ⟨o, rfl, ?_⟩
      rcases takeOperands_cases o tl with ⟨i, rest, hi, hop, htl⟩ | ⟨hlt, hm⟩
      · refine .inr ⟨?_, i, rest, ?_, hop, ?_, ?_⟩
        · have hle : ¬ tl.length < o.operandCount := by
            rw [htl, List.length_append, Instr.operands_length, hop]; omega
          have := mt (hlen o).2 hle
          omega
        · simp only [decode, hcb, decodeWith, hl, hi]
        · rw [hcb]; exact htl
        · simp only [fetch, decode, hcb, decodeWith, hl, hi, hir]
      · refine .inl ⟨(hlen o).1 hlt, ?_⟩
        simp only [fetch, decode, hcb, decodeWith, hl, hm, hir, hsum o hlt]
        rfl
  have hcount : ∀ o : Op, o.operandCount ≤ 2 := fun o => by cases o <;> decide
  rcases s.codeBytes_cases with ⟨h, hc⟩ | ⟨h, hc⟩ | ⟨h, hc⟩ | ⟨h, hc⟩
  · refine .inr ⟨by omega, key (by omega) _ hc ?_ ?_⟩ <;> intro o <;> have := hcount o <;>
      simp only [List.length_cons, List.length_nil] <;> omega
  · refine .inr ⟨by omega, key (by omega) _ (by rw [h]; exact hc) ?_ ?_⟩ <;> intro o <;> have := hcount o <;>
      simp only [List.length_cons, List.length_nil] <;> omega
  · refine .inr ⟨by omega, key (by omega) _ (by rw [h]; exact hc) ?_ ?_⟩ <;> intro o <;> have := hcount o <;>
      simp only [List.length_nil] <;> omega
  · refine .inl ⟨h, ?_⟩
    simp only [fetch, decode, hc, decodeWith, s.loadIr_ge h]

theorem step_halted {s : State} (h : s.run = .halted) : step s = .fault .haltedHasNoStep := by
  simp only [step, h]

theorem step_run {s t : State} {i : Instr} (h : s.run = .running) (hf : fetch s = .run i t) : step s = exec i t := by
  simp only [step, h, hf]

theorem step_raised {s t : State} (h : s.run = .running) (hf : fetch s = .raised t) : step s = .next t := by
  simp only [step, h, hf]

/-- A step that answers a next state was a step of a running core, and either executed the instruction at PC with the
opcode byte in IR, or raised a fault of the dispatcher. -/
theorem step_next_cases {s t : State} (h : step s = .next t) :
    s.run = .running ∧
      ((256 ≤ s.pc.toNat ∧ t = s.raise .boundsFetch s.pc) ∨
        (s.pc.toNat ≤ 255 ∧
          ((lookupOp opcodeTable (s.mem.read s.pc.toNat) = none ∧
              t = ({ s with ir := s.mem.read s.pc.toNat } : State).raise .unsupportedInstruction
                (zext9 (s.mem.read s.pc.toNat))) ∨
            ∃ o, lookupOp opcodeTable (s.mem.read s.pc.toNat) = some o ∧
              ((256 ≤ s.pc.toNat + o.operandCount ∧
                  t = ({ s with ir := s.mem.read s.pc.toNat } : State).raise .boundsFetch 256) ∨
                (s.pc.toNat + o.operandCount ≤ 255 ∧ ∃ i rest, decode s.codeBytes = .ok i rest ∧ i.op = o ∧
                  s.codeBytes.tail = i.operands ++ rest ∧
                  exec i { s with ir := s.mem.read s.pc.toNat } = .next t))))) := by
  rcases hr : s.run with _ | _
  case halted => rw [step_halted hr] at h; cases h
  case running =>
    refine ⟨rfl, ?_⟩
    rw [← hr]
    rcases fetch_cases s with ⟨hp, hf⟩ | ⟨hp, ⟨hl, hf⟩ | ⟨o, hl, ⟨hq, hf⟩ | ⟨hq, i, rest, hd, hop, htl, hf⟩⟩⟩
    · rw [step_raised hr hf] at h; cases h
      exact .inl ⟨hp, rfl⟩
    · rw [step_raised hr hf] at h; cases h
      exact .inr ⟨hp, .inl ⟨hl, rfl⟩⟩
    · rw [step_raised hr hf] at h; cases h
      exact .inr ⟨hp, .inr ⟨o, hl, .inl ⟨hq, rfl⟩⟩⟩
    · rw [step_run hr hf] at h
      exact .inr ⟨hp, .inr ⟨o, hl, .inr ⟨hq, i, rest, hd, hop, htl, h⟩⟩⟩

end Sys2Proof.Machine
end

