-- ==== Sys2Proof/Laws/Run.lean ====
section
/-!
SUPPORT. Runs one step at a time: what `Host.Core.run` of the core does first (spec/40_step_cycle.md R68).
-/

namespace Sys2Proof.Machine

theorem run_zero (s : State) : core.run 0 s = .next s := rfl

theorem run_of_next {s t : State} (h : step s = .next t) (n : Nat) : core.run (n + 1) s = core.run n t := by
  have hr := Host.Core.run.eq_2 core s n
  rw [show core.step s = .next t from h] at hr
  exact hr

theorem run_of_fault {s : State} {r : Fault} (h : step s = .fault r) (n : Nat) : core.run (n + 1) s = .fault r := by
  have hr := Host.Core.run.eq_2 core s n
  rw [show core.step s = .fault r from h] at hr
  exact hr

theorem run_of_refused {s : State} {r : Refusal} (h : step s = .refused r) (n : Nat) :
    core.run (n + 1) s = .refused r := by
  have hr := Host.Core.run.eq_2 core s n
  rw [show core.step s = .refused r from h] at hr
  exact hr

/-- A run of `n + 1` steps that answers a next state began with a step. -/
theorem run_succ_next {s u : State} {n : Nat} (h : core.run (n + 1) s = .next u) :
    ∃ t, step s = .next t ∧ core.run n t = .next u := by
  cases hs : step s with
  | next t => rw [run_of_next hs] at h; exact ⟨t, rfl, h⟩
  | fault r => rw [run_of_fault hs] at h; cases h
  | refused r => rw [run_of_refused hs] at h; cases h

end Sys2Proof.Machine
end

