-- ==== Sys2Proof/Tests/Slice0.lean ====
section
/-!
SUPPORT. Tests: ill-formed instructions refused, words written out from the encodings of spec/30_encoding.md R45 and R49,
single steps whose results stand in the spec's rules, and for every statement that has hypotheses a concrete state that
meets them (at the boundary values of each clause). No expected value comes from the model.
-/

open Sys2Proof Sys2Proof.Machine

namespace Sys2Proof.Tests

/-- The next state of an outcome. -/
def nextOf : Result → Option State
  | .next s => some s
  | .fault _ => none
  | .refused _ => none

/-- The reset state with a program counter and memory. -/
def place (pc : Word9) (mem : Memory) : State := { State.reset with pc := pc, mem := mem }

/-- The reset state with two registers set. -/
def with2 (i : RegIx) (u : Byte) (j : RegIx) (v : Byte) : State := (State.reset.setReg i u).setReg j v

/-- A field of the next state of an instruction. -/
def after {α : Type} (i : Instr) (s : State) (f : State → α) : Option α := (nextOf (exec i s)).map f

/-- A field of the state after one step. -/
def afterStep {α : Type} (s : State) (f : State → α) : Option α := (nextOf (step s)).map f

/-! ### WellFormed refuses: one ill-formed term for each register operand (R14, R48) -/

theorem test_illFormed_ldi : (Instr.ldi 0x08 0x00).wellFormed = false := by decide
theorem test_illFormed_prn : (Instr.prn 0x80).wellFormed = false := by decide
theorem test_illFormed_add_first : (Instr.add 0x08 0x00).wellFormed = false := by decide
theorem test_illFormed_add_second : (Instr.add 0x00 0x08).wellFormed = false := by decide
theorem test_illFormed_mul_first : (Instr.mul 0x80 0x00).wellFormed = false := by decide
theorem test_illFormed_mul_second : (Instr.mul 0x00 0x80).wellFormed = false := by decide
theorem test_illFormed_cmp_first : (Instr.cmp 0x08 0x00).wellFormed = false := by decide
theorem test_illFormed_cmp_second : (Instr.cmp 0x00 0xFF).wellFormed = false := by decide
theorem test_illFormed_and_first : (Instr.and 0x10 0x00).wellFormed = false := by decide
theorem test_illFormed_and_second : (Instr.and 0x00 0x10).wellFormed = false := by decide
theorem test_illFormed_or_first : (Instr.or 0x20 0x00).wellFormed = false := by decide
theorem test_illFormed_or_second : (Instr.or 0x00 0x20).wellFormed = false := by decide
theorem test_illFormed_xor_first : (Instr.xor 0x40 0x00).wellFormed = false := by decide
theorem test_illFormed_xor_second : (Instr.xor 0x00 0x40).wellFormed = false := by decide
theorem test_illFormed_push : (Instr.push 0x08).wellFormed = false := by decide
theorem test_illFormed_pop : (Instr.pop 0x08).wellFormed = false := by decide
theorem test_illFormed_call : (Instr.call 0x08).wellFormed = false := by decide
theorem test_illFormed_jmp : (Instr.jmp 0xFF).wellFormed = false := by decide
theorem test_illFormed_jeq : (Instr.jeq 0x08).wellFormed = false := by decide
theorem test_illFormed_jne : (Instr.jne 0x0F).wellFormed = false := by decide
theorem test_wellFormed_limits : (Instr.add 0x07 0x00).wellFormed = true ∧ (Instr.ldi 0x07 0xFF).wellFormed = true := by
  decide

/-! ### Decoding: the binary column of R49, operand bytes after it (R45) -/

theorem test_decode_hlt : decode [0b00000001] = .ok .hlt [] := by decide
theorem test_decode_ldi : decode [0b10000010, 0b00000011, 0b00101010] = .ok (.ldi 3 42) [] := by decide
theorem test_decode_prn : decode [0b01000111, 0b00000101] = .ok (.prn 5) [] := by decide
theorem test_decode_add : decode [0b10100000, 0b00000010, 0b00000001] = .ok (.add 2 1) [] := by decide
theorem test_decode_mul : decode [0b10100010, 0b00000000, 0b00000001] = .ok (.mul 0 1) [] := by decide
theorem test_decode_cmp : decode [0b10100111, 0b00000110, 0b00000111] = .ok (.cmp 6 7) [] := by decide
theorem test_decode_and : decode [0b10101000, 0b00000000, 0b00000001] = .ok (.and 0 1) [] := by decide
theorem test_decode_or : decode [0b10101010, 0b00000010, 0b00000001] = .ok (.or 2 1) [] := by decide
theorem test_decode_xor : decode [0b10101011, 0b00000100, 0b00000011] = .ok (.xor 4 3) [] := by decide
theorem test_decode_push : decode [0b01000101, 0b00000001] = .ok (.push 1) [] := by decide
theorem test_decode_pop : decode [0b01000110, 0b00000010, 0b00000001] = .ok (.pop 2) [1] := by decide
theorem test_decode_call : decode [0b01010000, 0b00000001] = .ok (.call 1) [] := by decide
theorem test_decode_ret : decode [0b00010001, 0b00000001] = .ok .ret [1] := by decide
theorem test_decode_jmp : decode [0b01010100, 0b00000100] = .ok (.jmp 4) [] := by decide
theorem test_decode_jeq : decode [0b01010101, 0b00000010] = .ok (.jeq 2) [] := by decide
theorem test_decode_jne : decode [0b01010110, 0b00000011] = .ok (.jne 3) [] := by decide
/-- The bytes that LS-8 would give to NOT, SHL, SHR and MOD are unsupported (R52). -/
theorem test_decode_rejected : decode [0b01101001, 0] = .unsupported 0x69 ∧ decode [0b10101100, 0, 0] = .unsupported 0xAC ∧
    decode [0b10101101, 0, 0] = .unsupported 0xAD ∧ decode [0b10100100, 0, 0] = .unsupported 0xA4 := by decide
/-- The numbering of spec/opcode_table.json: the opcode is the low byte, and operand bits above nbits are 0. -/
theorem test_decodeTableWord : decodeTableWord 24 0x2A0382 = some (.ldi 3 42) ∧ decodeTableWord 8 0xA7 = some (.cmp 0 0) ∧
    decodeTableWord 8 0xFF = none := by decide

/-! ### One step each (the examples of the instruction rules) -/

theorem test_hlt : afterStep (State.reset.withFetchWord 8 0x01) (fun t => (t.run, t.pc, t.ir, t.fault)) =
    some (.halted, 1, 0x01, none) := by decide
theorem test_ldi : after (.ldi 3 0x2A) State.reset (fun t => (t.reg 3, t.pc)) = some (0x2A, 3) := by decide
theorem test_ldi_stack_pointer : after (.ldi 7 0xFF) State.reset (fun t => t.reg 7) = some 0xFF := by decide
theorem test_prn : after (.prn 0) (State.reset.setReg 0 8) (fun t => (t.out, t.pc)) = some ([8], 2) := by decide
theorem test_add_wraps : after (.add 2 1) (with2 2 255 1 2) (fun t => (t.reg 2, t.reg 1, t.fl)) = some (1, 2, 0) := by decide
theorem test_mul_wraps : after (.mul 0 1) (with2 0 200 1 2) (fun t => t.reg 0) = some 144 := by decide
theorem test_mul_squares : after (.mul 5 5) (State.reset.setReg 5 255) (fun t => t.reg 5) = some 1 := by decide
theorem test_cmp_equal : after (.cmp 0 1) (with2 0 5 1 5) (fun t => (t.fl, t.reg 0)) = some (0b001, 5) := by decide
theorem test_cmp_unsigned : after (.cmp 0 1) (with2 0 0xFF 1 0x01) (fun t => t.fl) = some 0b010 := by decide
theorem test_and : after (.and 0 1) (with2 0 0x0C 1 0x0A) (fun t => t.reg 0) = some 0x08 := by decide
theorem test_or : after (.or 2 1) (with2 2 0x0C 1 0x0A) (fun t => t.reg 2) = some 0x0E := by decide
theorem test_xor : after (.xor 0 1) (with2 0 0x0C 1 0x0A) (fun t => t.reg 0) = some 0x06 := by decide
theorem test_push : after (.push 0) (State.reset.setReg 0 1) (fun t => (t.reg 7, t.mem)) = some (0xF3, [(0xF3, 1)]) := by
  decide
theorem test_push_r7 : after (.push 7) State.reset (fun t => t.mem) = some [(0xF3, 0xF3)] := by decide
theorem test_pop : after (.pop 1) (State.setReg { State.reset with mem := [(0xF3, 0x2A)] } 7 0xF3)
    (fun t => (t.reg 1, t.reg 7, t.mem)) = some (0x2A, 0xF4, [(0xF3, 0x2A)]) := by decide
theorem test_call : after (.call 1) { State.reset.setReg 1 0x0B with pc := 6 }
    (fun t => (t.reg 7, t.mem, t.pc)) = some (0xF3, [(0xF3, 0x08)], 0x0B) := by decide
theorem test_ret : after .ret (State.setReg { State.reset with mem := [(0xF3, 0x08)] } 7 0xF3)
    (fun t => (t.pc, t.reg 7)) = some (0x08, 0xF4) := by decide
theorem test_jmp : after (.jmp 4) (State.reset.setReg 4 0x3B) (fun t => t.pc) = some 0x3B := by decide
theorem test_jeq : after (.jeq 2) { State.reset.setReg 2 20 with fl := 1, pc := 0x0C } (fun t => t.pc) = some 20 := by decide
theorem test_jeq_not_taken : after (.jeq 2) { State.reset.setReg 2 20 with fl := 4, pc := 0x0C } (fun t => t.pc) =
    some 0x0E := by decide
theorem test_jne : after (.jne 3) { State.reset.setReg 3 0x0C with fl := 4, pc := 0x14 } (fun t => t.pc) = some 0x0C := by
  decide
theorem test_jne_not_taken : after (.jne 3) { State.reset.setReg 3 0x0C with fl := 1, pc := 0x14 } (fun t => t.pc) =
    some 0x16 := by decide
/-- The empty image faults on the zero byte at address 0 (R126). -/
theorem test_empty_image : afterStep State.reset (fun t => (t.run, t.fault)) =
    some (.halted, some ⟨.unsupportedInstruction, 0, 0⟩) := by decide
/-- The word is fetched and run from reset. -/
theorem test_withFetchWord : afterStep (State.reset.withFetchWord 24 0x2A0382) (fun t => (t.reg 3, t.pc)) =
    some (0x2A, 3) := by decide

/-! ### Witnesses: the hypotheses of each statement, met -/

theorem table_distinct : ∀ o o' : Op, opcodeTable o = opcodeTable o' → o = o' := by
  intro o o'
  cases o <;> cases o' <;> decide

/-- The limits of a register operand: bytes 0 and 7 name registers 0 and 7. -/
theorem witness_register_limits : (0x00 : Byte).toNat = (0 : RegIx).val ∧ (0x07 : Byte).toNat = (7 : RegIx).val := by decide

theorem witness_loader_full : (List.replicate 256 (0x01 : Byte)).length ≤ 256 := by
  rw [List.length_replicate]
theorem witness_loader_too_long : 256 < (List.replicate 257 (0x01 : Byte)).length ∧
    State.init (List.replicate 257 0x01) = none := by
  have h : 256 < (List.replicate 257 (0x01 : Byte)).length := by rw [List.length_replicate]; decide
  generalize List.replicate 257 (0x01 : Byte) = image at h
  exact ⟨h, if_neg (Nat.not_le.2 h)⟩
theorem witness_write_inside : Memory.wf [(5, 0x01), (255, 0x02)] = true ∧ 255 ≤ 255 := by decide
theorem witness_write_outside : Memory.wf [(5, 0x01)] = true ∧ 255 < 256 := by decide
theorem witness_canonical_pair : Memory.wf [(3, 0x07)] = true ∧ Memory.wf (Memory.write [] 3 0x07) = true ∧
    ∀ a, a ≤ 255 → Memory.read [(3, 0x07)] a = Memory.read (Memory.write [] 3 0x07) a :=
  ⟨by decide, by decide, fun _ _ => rfl⟩
theorem witness_decode_of_encode : ∃ t : OpcodeTable, ∀ o o' : Op, t o = t o' → o = o' := ⟨opcodeTable, table_distinct⟩
theorem witness_decoded_bytes : decodeWith opcodeTable [0xA0, 0x02, 0xFF, 0x01] = .ok (.add 0x02 0xFF) [0x01] := by decide
theorem witness_cut_off : (∀ o o' : Op, opcodeTable o = opcodeTable o' → o = o') ∧
    0 < (Instr.prn 0x00).operands.length ∧ 1 < (Instr.add 0x00 0x00).operands.length := ⟨table_distinct, by decide⟩
theorem witness_halted : State.reset.halt.run = .halted := by decide
theorem witness_step_decoded : (place 3 [(3, 0xA0), (4, 0x07), (5, 0xFF)]).run = .running ∧
    decode (place 3 [(3, 0xA0), (4, 0x07), (5, 0xFF)]).codeBytes = .ok (.add 0x07 0xFF) [] := by decide
/-- An instruction whose last byte is at 255: the three bytes of MUL at 253, and HLT at 255. -/
theorem witness_step_in_memory : (place 253 [(253, 0xA2), (255, 0x01)]).run = .running ∧
    (253 : Word9).toNat + (Instr.mul 0x00 0x01).length ≤ 256 ∧
    (∀ k, k < (Instr.mul 0x00 0x01).length → Memory.read [(253, 0xA2), (255, 0x01)] ((253 : Word9).toNat + k) =
      (encode (.mul 0x00 0x01)).getD k 0x00) := by decide
theorem witness_step_in_memory_top : (place 255 [(255, 0x01)]).run = .running ∧
    (255 : Word9).toNat + Instr.hlt.length ≤ 256 ∧
    (∀ k, k < Instr.hlt.length → Memory.read [(255, 0x01)] ((255 : Word9).toNat + k) = (encode .hlt).getD k 0x00) := by
  decide
theorem witness_fetch : (place 256 []).run = .running ∧ (place 256 []).pc = 256 ∧ (place 255 []).run = .running ∧
    (place 255 []).pc.toNat ≤ 255 := by decide
/-- At address 255 a byte whose bits 7:6 are 3. -/
theorem witness_unsupported : (place 255 [(255, 0xFF)]).run = .running ∧ (place 255 [(255, 0xFF)]).pc.toNat ≤ 255 ∧
    ∀ o : Op, opcodeTable o ≠ (place 255 [(255, 0xFF)]).mem.read (place 255 [(255, 0xFF)]).pc.toNat :=
  ⟨by decide, by decide, fun o => by cases o <;> decide⟩
theorem witness_operand_past_memory : (place 255 [(255, 0x45)]).pc.toNat ≤ 255 ∧
    (place 255 [(255, 0x45)]).mem.read (place 255 [(255, 0x45)]).pc.toNat = opcodeTable (Instr.push 0x00).op ∧
    255 < (place 255 [(255, 0x45)]).pc.toNat + (Instr.push 0x00).operands.length := by decide
theorem witness_second_operand_past_memory : (place 254 [(254, 0x82)]).pc.toNat ≤ 255 ∧
    (place 254 [(254, 0x82)]).mem.read (place 254 [(254, 0x82)]).pc.toNat = opcodeTable (Instr.ldi 0x00 0x00).op ∧
    255 < (place 254 [(254, 0x82)]).pc.toNat + (Instr.ldi 0x00 0x00).operands.length := by decide
/-- PC becomes 256 after HLT at 255, after JEQ not taken at 254 and after JNE not taken at 254. -/
theorem witness_pc_becomes_256 : afterStep (place 255 [(255, 0x01)]) (fun t => t.pc) = some 256 ∧
    afterStep (place 254 [(254, 0x55)]) (fun t => t.pc) = some 256 ∧
    afterStep { place 254 [(254, 0x56)] with fl := 1 } (fun t => t.pc) = some 256 := by decide
/-- A step without SPC (LDI) and one with SPC (JMP), neither of which faults. -/
theorem witness_pc_update : (place 0 [(0, 0x82)]).fault = none ∧
    afterStep (place 0 [(0, 0x82)]) (fun t => (t.fault, spcField t.ir)) = some (none, false) ∧
    afterStep (place 0 [(0, 0x54)]) (fun t => (t.fault, spcField t.ir)) = some (none, true) := by decide
/-- An instruction that does not fault, and one that does. -/
theorem witness_pc_after : after (.prn 0x07) State.reset (fun t => t.fault) = some none ∧
    after (.prn 0x08) State.reset (fun t => t.fault) = some (some ⟨.boundsRegister, 0, 8⟩) := by decide
theorem witness_cmp_orders : (with2 0 5 1 5).reg 0 = (with2 0 5 1 5).reg 1 ∧
    ((with2 0 6 1 5).reg 1).toNat < ((with2 0 6 1 5).reg 0).toNat ∧
    ((with2 0 5 1 6).reg 0).toNat < ((with2 0 5 1 6).reg 1).toNat := by decide
/-- PUSH and CALL with the lowest stack pointer that pushes, 1. -/
theorem witness_push : (State.reset.setReg 7 0x01).mem.wf = true ∧ (State.reset.setReg 7 0x01).reg 7 ≠ 0x00 ∧
    (0x07 : Byte).toNat = (7 : RegIx).val := by decide
/-- POP with the highest stack pointer that pops, 0xFE, and POP r7 of the byte 0xFE. -/
theorem witness_pop : (0 : RegIx) ≠ 7 ∧ (State.reset.setReg 7 0xFE).reg 7 ≠ 0xFF ∧
    (place 0 [(0xF4, 0xFE)]).mem.read ((place 0 [(0xF4, 0xFE)]).reg 7).toNat ≠ 0xFF := by decide
theorem witness_call : (place 253 []).mem.wf = true ∧ (place 253 []).pc.toNat ≤ 253 ∧ (place 253 []).reg 7 ≠ 0x00 := by
  decide
theorem witness_ret : (State.reset.setReg 7 0xFE).reg 7 ≠ 0xFF := by decide
theorem witness_jump_flags : (State.reset).fl.getLsbD 0 = false ∧ ({ State.reset with fl := 1 } : State).fl.getLsbD 0 = true := by
  decide
theorem witness_regIdx : (0x07 : Byte).toNat ≤ 7 ∧ 7 < (0x08 : Byte).toNat := by decide
theorem witness_register_byte : 7 < (0x08 : Byte).toNat ∧ 7 < (0xFF : Byte).toNat ∧ (0x07 : Byte).toNat ≤ 7 := by decide
theorem witness_push_low : (0x07 : Byte).toNat ≤ 7 ∧ ({ State.reset.setReg 7 0x00 with pc := 253 } : State).reg 7 = 0x00 ∧
    ({ State.reset.setReg 7 0x00 with pc := 253 } : State).pc.toNat ≤ 253 := by decide
theorem witness_pop_high : (State.reset.setReg 7 0xFF).reg 7 = 0xFF ∧ (0x06 : Byte).toNat < 7 ∧
    (place 0 [(0xF4, 0xFF)]).mem.read ((place 0 [(0xF4, 0xFF)]).reg 7).toNat = 0xFF := by decide
theorem witness_call_254 : (0x00 : Byte).toNat ≤ 7 ∧ (place 254 []).pc = 254 := by decide
/-- A step that raises a fault with IR written, and one that raises it at 256. -/
theorem witness_precise : (place 256 []).fault = none ∧
    afterStep (place 256 []) (fun t => t.fault) = some (some ⟨.boundsFetch, 256, 256⟩) ∧
    afterStep State.reset (fun t => t.fault) = some (some ⟨.unsupportedInstruction, 0, 0⟩) := by decide
/-- Two conditions at once, of which the first counts: both register bytes bad; CALL at 254 with stack pointer 0. -/
theorem witness_first_fault : (place 0 [(0, 0xA0), (1, 0x09), (2, 0x0A)]).pc.toNat ≤ 256 ∧
    afterStep (place 0 [(0, 0xA0), (1, 0x09), (2, 0x0A)]) (fun t => t.fault) = some (some ⟨.boundsRegister, 0, 9⟩) ∧
    afterStep (State.setReg (place 254 [(254, 0x50)]) 7 0) (fun t => t.fault) =
      some (some ⟨.boundsReturnAddress, 254, 256⟩) := by decide
/-- A record of ALU_FAULT that a state holds (no run reaches it) and that HLT, executed in it, leaves there. -/
theorem witness_alu_record : ∃ s t : State, ∃ f : FaultRecord, t.fault = some f ∧ f.kind = .aluFault ∧ exec .hlt s = .next t :=
  ⟨{ State.reset with fault := some ⟨.aluFault, 0, 0⟩ }, _, ⟨.aluFault, 0, 0⟩, rfl, rfl, rfl⟩
theorem witness_legal : Inv State.reset := ⟨by decide, by decide, .inl rfl, fun h => absurd rfl h, fun _ h => nomatch h⟩
/-- A legal state with a fault recorded: the reset state after its first step. -/
theorem witness_legal_faulted : Inv (State.reset.raise .unsupportedInstruction 0x00) ∧
    (State.reset.raise .unsupportedInstruction 0x00).fault ≠ none := by
  refine ⟨⟨by decide, by decide, .inl rfl, fun _ => rfl, fun f h => ?_⟩, by decide⟩
  cases h
  exact ⟨⟨by decide, by decide, by decide, fun o => by cases o <;> decide⟩, rfl⟩
/-- Instructions that answer a next state: CMP, PRN, PUSH and a step. -/
theorem witness_next_states : (∃ t, exec (.cmp 0x00 0x01) State.reset = .next t) ∧
    (∃ t, exec (.prn 0x00) State.reset = .next t) ∧ (∃ t, exec (.push 0x00) State.reset = .next t) ∧
    ∃ t, step State.reset = .next t := ⟨⟨_, rfl⟩, ⟨_, rfl⟩, ⟨_, rfl⟩, ⟨_, rfl⟩⟩
theorem witness_push_address : State.reset.pushAddr = some 0xF3 ∧ (State.reset.setReg 7 0x00).pushAddr = none := by decide
/-- A step to a final state, one to a faulted state and one to a running state. -/
theorem witness_endings : afterStep (place 0 [(0, 0x01)]) (fun t => (t.run, t.fault)) = some (.halted, none) ∧
    afterStep State.reset (fun t => t.run) = some .halted ∧
    afterStep (place 0 [(0, 0x54)]) (fun t => t.run) = some .running := by decide
theorem witness_reachable : State.init [0x01] = some (place 0 [(0, 0x01)]) ∧
    (∃ t, core.run 1 (place 0 [(0, 0x01)]) = .next t) ∧
    core.run 2 (place 0 [(0, 0x01)]) = .fault .haltedHasNoStep := ⟨by decide, ⟨_, rfl⟩, rfl⟩
theorem witness_sameButGL : sameButGL { State.reset with fl := 2 } { State.reset with fl := 4 } ∧
    ∃ t, core.run 1 { State.reset with fl := 2 } = .next t := ⟨⟨rfl, rfl, rfl, rfl, rfl, rfl, rfl, rfl⟩, ⟨_, rfl⟩⟩
theorem witness_old_ir : (place 255 []).pc.toNat ≤ 255 := by decide
theorem witness_push_pop : (1 : RegIx) ≠ 7 ∧ (2 : RegIx) ≠ 7 ∧ State.reset.mem.wf = true ∧ State.reset.reg 7 ≠ 0x00 := by
  decide
theorem witness_depth : (0x00 : Byte).toNat ≤ 7 ∧ State.reset.fault = none ∧ 244 ≤ (State.reset.reg 7).toNat := by decide
/-- The longest row of pushes from address 0 whose last one, which faults, lies at 254. -/
theorem witness_depth_in_memory : (State.reset.setReg 7 127).fault = none ∧
    (State.reset.setReg 7 127).pc.toNat + 2 * ((State.reset.setReg 7 127).reg 7).toNat ≤ 254 := by decide
/-- PUSH r0 at 0 with the stack pointer at 3 stores to 2, the next instruction's address; CALL r7. -/
theorem witness_store_is_fetched : (State.setReg (place 0 [(0, 0x45)]) 7 3).run = .running ∧
    (State.setReg (place 0 [(0, 0x45)]) 7 3).mem.wf = true ∧
    (State.setReg (place 0 [(0, 0x45)]) 7 3).pushAddr = some 2 ∧
    decode (State.setReg (place 0 [(0, 0x45)]) 7 3).codeBytes = .ok (.push 0x00) [0x00] ∧
    (2 : Byte).toNat = (State.setReg (place 0 [(0, 0x45)]) 7 3).pc.toNat + 2 ∧
    (place 253 [(253, 0x50), (254, 0x07)]).pushAddr = some 0xF3 ∧ (place 253 [(253, 0x50), (254, 0x07)]).pc.toNat ≤ 253 ∧
    decode (place 253 [(253, 0x50), (254, 0x07)]).codeBytes = .ok (.call 7) [0x00] := by decide
theorem witness_fault_record : (State.reset.raise .boundsFetch 256).fault = some ⟨.boundsFetch, 0, 256⟩ := by decide

end Sys2Proof.Tests
end

section
/-!
PROOF. The core's own opcode table against the four constraints of spec/30_encoding.md R50.
-/

namespace Sys2Proof

/-- R50.1: bits 7:6 count the operand bytes of the row's format. -/
@[simp] theorem nopsField_opcodeTable (o : Op) : nopsField (opcodeTable o) = o.operandCount := by cases o <;> rfl

/-- R50.2: bit 4 marks the instructions that set PC themselves. -/
@[simp] theorem spcField_opcodeTable (o : Op) : spcField (opcodeTable o) = o.setsPc := by cases o <;> rfl

/-- The five names of R50.2, as a list. -/
theorem Op.setsPc_iff_mem (o : Op) : o.setsPc = true ↔ o ∈ [Op.call, .ret, .jmp, .jeq, .jne] := by cases o <;> decide

/-- The lookup inverts the table, so no earlier row hides a later one. -/
@[simp] theorem lookupOp_opcodeTable (o : Op) : lookupOp opcodeTable (opcodeTable o) = some o := by cases o <;> rfl

/-- R50.3, from the inverse. -/
theorem tableDistinct_opcodeTable : tableDistinct opcodeTable := fun o o' h =>
  Option.some.inj <| calc
    some o = lookupOp opcodeTable (opcodeTable o) := (lookupOp_opcodeTable o).symm
    _ = lookupOp opcodeTable (opcodeTable o') := by rw [h]
    _ = some o' := lookupOp_opcodeTable o'

/-- R50.4: looking the all-ones byte up finds no row. -/
theorem opcodeTable_ne_allOnes (o : Op) : opcodeTable o ≠ 0b11111111 := lookupOp_none (by decide) o

/-- The core's table meets R50 in the model's own terms. -/
theorem tableMeetsSource_opcodeTable : tableMeetsSource opcodeTable :=
  ⟨nopsField_opcodeTable, spcField_opcodeTable, tableDistinct_opcodeTable, opcodeTable_ne_allOnes⟩

/-- Settles O5: each constraint on the rows of the table, carried to the instructions by the number of their operands and
by the list of those that set PC. -/
theorem opcodeTableMeetsTheFourConstraints : Obligations.OpcodeTableMeetsTheFourConstraints := by
  obtain ⟨hnops, hspc, hdistinct, hones⟩ := tableMeetsSource_opcodeTable
  refine ⟨fun i => ?_, fun i => ?_, fun o o' hne heq => hne (hdistinct o o' heq), hones⟩
  · rw [hnops, Instr.operands_length]
  · rw [hspc, Op.setsPc_iff_mem]

end Sys2Proof
end

section
/-!
PROOF. A step is taken exactly while RUN = RUNNING (spec/40_step_cycle.md R61): every instruction's meaning answers a
next state, and so does every step of a running core.
-/

namespace Sys2Proof.Machine

theorem aluInstr_next (k : AluKind) (a b : Byte) (s : State) : ∃ t, aluInstr k a b s = .next t := by
  rcases aluInstr_cases k a b s with ⟨_, _, -, -, -, -, h⟩ | ⟨-, h⟩ | ⟨-, -, h⟩
  all_goals exact ⟨_, h⟩

theorem jumpIf_next (c : Bool) (b : Byte) (s : State) : ∃ t, jumpIf c b s = .next t := by
  rcases jumpIf_cases c b s with ⟨_, -, -, h⟩ | ⟨-, h⟩
  all_goals exact ⟨_, h⟩

/-- No instruction's meaning stops the model: a fault of the core is a next state too (R116). -/
theorem exec_next (i : Instr) (s : State) : ∃ t, exec i s = .next t := by
  cases i with
  | hlt => exact ⟨_, rfl⟩
  | ldi r imm =>
    rcases execLdi_cases r imm s with ⟨_, -, -, h⟩ | ⟨-, h⟩
    all_goals exact ⟨_, h⟩
  | prn r =>
    rcases execPrn_cases r s with ⟨_, -, -, h⟩ | ⟨-, h⟩
    all_goals exact ⟨_, h⟩
  | add a b => exact aluInstr_next .add a b s
  | mul a b => exact aluInstr_next .mul a b s
  | cmp a b => exact aluInstr_next .cmp a b s
  | and a b => exact aluInstr_next .and a b s
  | or a b => exact aluInstr_next .or a b s
  | xor a b => exact aluInstr_next .xor a b s
  | push r =>
    rcases execPush_cases r s with ⟨_, -, -, -, -, h⟩ | ⟨-, h⟩ | ⟨-, -, -, h⟩
    all_goals exact ⟨_, h⟩
  | pop r =>
    rcases execPop_cases r s with ⟨_, -, -, ⟨-, h⟩ | ⟨-, h⟩⟩ | ⟨-, h⟩
    all_goals exact ⟨_, h⟩
  | call r =>
    rcases execCall_cases r s with ⟨_, -, -, -, -, -, h⟩ | ⟨-, h⟩ | ⟨-, -, h⟩ | ⟨-, -, -, -, h⟩
    all_goals exact ⟨_, h⟩
  | ret =>
    rcases execRet_cases s with ⟨-, h⟩ | ⟨-, h⟩
    all_goals exact ⟨_, h⟩
  | jmp r =>
    rcases execJmp_cases r s with ⟨_, -, -, h⟩ | ⟨-, h⟩
    all_goals exact ⟨_, h⟩
  | jeq r => exact jumpIf_next (flagE s.fl) r s
  | jne r => exact jumpIf_next (!flagE s.fl) r s

/-- A running core has a step, whether it executes an instruction or the dispatcher raises a fault. -/
theorem step_next_of_running {s : State} (h : s.run = .running) : ∃ t, step s = .next t := by
  cases hf : fetch s with
  | run i u => rw [step_run h hf]; exact exec_next i u
  | raised u => exact ⟨u, step_raised h hf⟩

theorem running_iff_step_next (s : State) : s.run = .running ↔ ∃ t, step s = .next t :=
  ⟨step_next_of_running, fun ⟨_, ht⟩ => (step_next_cases ht).1⟩

/-- However many steps are asked of a halted core, the first of them is missing. -/
theorem run_succ_halted {s : State} (h : s.run = .halted) (n : Nat) :
    core.run (n + 1) s = .fault .haltedHasNoStep :=
  run_of_fault (step_halted h) n

theorem State.rst_run (s : State) : s.rst.run = .running := rfl

/-- Settles O11: a running core's step answers a next state and no other's does, a run from a halted state ends at its
first step, and reset writes RUN. -/
theorem stepIsTakenExactlyWhileRunning : Obligations.StepIsTakenExactlyWhileRunning := by
  refine fun s => ⟨running_iff_step_next s, fun hhalted n t ht => ?_, s.rst_run⟩
  rw [run_succ_halted hhalted n] at ht
  cases ht

end Sys2Proof.Machine
end

section
/-!
PROOF. FL is written by CMP alone, and CMP writes no register (spec/42_alu.md R83). The ALU's write decides it for the
six ALU instructions; every other write of the machine leaves FL, and raising a fault leaves FL and the registers.
-/

namespace Sys2Proof.Machine

/-- Only a compare's output is a flag update, so every other kind's write goes to a register. -/
theorem State.putAlu_alu_fl {k : AluKind} (hk : k ≠ .cmp) (s : State) (x : RegIx) (va vb : Byte) :
    (s.putAlu x (alu k va vb)).fl = s.fl := by
  cases k with
  | cmp => exact absurd rfl hk
  | add | mul | and | or | xor => exact s.setReg_fl x _

theorem State.putAlu_alu_cmp_regs (s : State) (x : RegIx) (va vb : Byte) :
    (s.putAlu x (alu .cmp va vb)).regs = s.regs := rfl

theorem aluInstr_fl {k : AluKind} (hk : k ≠ .cmp) {a b : Byte} {s t : State} (ht : aluInstr k a b s = .next t) :
    t.fl = s.fl := by
  rcases aluInstr_cases k a b s with ⟨x, y, -, -, -, -, h⟩ | ⟨-, h⟩ | ⟨-, -, h⟩
  all_goals cases h.symm.trans ht
  · rw [State.advance_fl, State.putAlu_alu_fl hk]
  · exact s.raise_fl _ _
  · exact s.raise_fl _ _

theorem aluInstr_cmp_regs {a b : Byte} {s t : State} (ht : aluInstr .cmp a b s = .next t) : t.regs = s.regs := by
  rcases aluInstr_cases .cmp a b s with ⟨x, y, -, -, -, -, h⟩ | ⟨-, h⟩ | ⟨-, -, h⟩
  all_goals cases h.symm.trans ht
  · rw [State.advance_regs, State.putAlu_alu_cmp_regs]
  · exact s.raise_regs _ _
  · exact s.raise_regs _ _

theorem jumpIf_fl {c : Bool} {b : Byte} {s t : State} (ht : jumpIf c b s = .next t) : t.fl = s.fl := by
  rcases jumpIf_cases c b s with ⟨r, -, -, h⟩ | ⟨-, h⟩
  all_goals cases h.symm.trans ht
  · cases c with
    | true => exact s.jump_fl _
    | false => exact s.advance_fl _
  · exact s.raise_fl _ _

/-- FL is in the frame of every instruction but CMP, whether it takes effect or raises its fault. -/
theorem exec_fl_of_op_ne_cmp {i : Instr} (hi : i.op ≠ .cmp) {s t : State} (ht : exec i s = .next t) : t.fl = s.fl := by
  cases i with
  | cmp a b => exact absurd rfl hi
  | hlt => cases ht; rfl
  | ldi r imm =>
    rcases execLdi_cases r imm s with ⟨_, -, -, h⟩ | ⟨-, h⟩
    all_goals cases h.symm.trans ht; simp
  | prn r =>
    rcases execPrn_cases r s with ⟨_, -, -, h⟩ | ⟨-, h⟩
    all_goals cases h.symm.trans ht; simp
  | add a b => exact aluInstr_fl (k := .add) nofun ht
  | mul a b => exact aluInstr_fl (k := .mul) nofun ht
  | and a b => exact aluInstr_fl (k := .and) nofun ht
  | or a b => exact aluInstr_fl (k := .or) nofun ht
  | xor a b => exact aluInstr_fl (k := .xor) nofun ht
  | push r =>
    rcases execPush_cases r s with ⟨_, -, -, -, -, h⟩ | ⟨-, h⟩ | ⟨-, -, -, h⟩
    all_goals cases h.symm.trans ht; simp
  | pop r =>
    rcases execPop_cases r s with ⟨_, -, -, ⟨-, h⟩ | ⟨-, h⟩⟩ | ⟨-, h⟩
    all_goals cases h.symm.trans ht; simp
  | call r =>
    rcases execCall_cases r s with ⟨_, -, -, -, -, -, h⟩ | ⟨-, h⟩ | ⟨-, -, h⟩ | ⟨-, -, -, -, h⟩
    all_goals cases h.symm.trans ht; simp
  | ret =>
    rcases execRet_cases s with ⟨-, h⟩ | ⟨-, h⟩
    all_goals cases h.symm.trans ht; simp
  | jmp r =>
    rcases execJmp_cases r s with ⟨_, -, -, h⟩ | ⟨-, h⟩
    all_goals cases h.symm.trans ht; simp
  | jeq r => exact jumpIf_fl (c := flagE s.fl) ht
  | jne r => exact jumpIf_fl (c := !flagE s.fl) ht

theorem exec_regs_of_op_eq_cmp {i : Instr} (hi : i.op = .cmp) {s t : State} (ht : exec i s = .next t) :
    t.regs = s.regs := by
  cases i with
  | cmp a b => exact aluInstr_cmp_regs (a := a) (b := b) ht
  | _ => exact nomatch hi

/-- Settles O39: the ALU's write touches FL for a compare and a register for every other kind, and no other instruction
writes FL. -/
theorem onlyCmpWritesFlags : Obligations.OnlyCmpWritesFlags :=
  fun _ _ _ ht => ⟨fun hi => exec_fl_of_op_ne_cmp hi ht, fun hi => exec_regs_of_op_eq_cmp hi ht⟩

end Sys2Proof.Machine
end

section
/-!
PROOF. ALU_FAULT is raised by no rule (spec/60_exceptions.md R113): whatever an instruction or a step does to FAULT, it
keeps the record it found or writes one of another kind.
-/

namespace Sys2Proof.Machine

/-- What a meaning does to FAULT (R116): the record is the one before, or a new one at the instruction's address whose
kind some rule raises (R107 to R112). -/
def faultKeptOrRaised (s t : State) : Prop :=
  t.fault = s.fault ∨ ∃ k info, k ≠ .aluFault ∧ t.fault = some ⟨k, s.pc, info⟩

theorem faultKeptOrRaised_raise (s : State) {k : FaultKind} (hk : k ≠ .aluFault) (info : Word9) :
    faultKeptOrRaised s (s.raise k info) := .inr ⟨k, info, hk, s.raise_fault k info⟩

/-- A new record is not of ALU_FAULT, so a record of it is an old one. -/
theorem faultKeptOrRaised.fault_of_aluFault {s t : State} (h : faultKeptOrRaised s t) {f : FaultRecord}
    (hf : t.fault = some f) (hkind : f.kind = .aluFault) : s.fault = some f := by
  rcases h with hkept | ⟨k, info, hk, hraised⟩
  · exact hkept.symm.trans hf
  · cases hraised.symm.trans hf
    exact absurd hkind hk

@[simp] theorem State.putAlu_fault (s : State) (x : RegIx) (o : AluOut) : (s.putAlu x o).fault = s.fault := by
  cases o <;> rfl

theorem aluInstr_faultKeptOrRaised {k : AluKind} {a b : Byte} {s t : State} (ht : aluInstr k a b s = .next t) :
    faultKeptOrRaised s t := by
  rcases aluInstr_cases k a b s with ⟨x, y, -, -, -, -, h⟩ | ⟨-, h⟩ | ⟨-, -, h⟩
  all_goals cases h.symm.trans ht
  · exact .inl (by rw [State.advance_fault, State.putAlu_fault])
  all_goals exact faultKeptOrRaised_raise s (by decide) _

theorem jumpIf_faultKeptOrRaised {c : Bool} {b : Byte} {s t : State} (ht : jumpIf c b s = .next t) :
    faultKeptOrRaised s t := by
  rcases jumpIf_cases c b s with ⟨r, -, -, h⟩ | ⟨-, h⟩
  all_goals cases h.symm.trans ht
  · cases c with
    | true => exact .inl (s.jump_fault _)
    | false => exact .inl (s.advance_fault _)
  · exact faultKeptOrRaised_raise s (by decide) _

/-- Each arm that takes effect leaves FAULT, and each arm that faults raises a BOUNDS kind. -/
theorem exec_faultKeptOrRaised {i : Instr} {s t : State} (ht : exec i s = .next t) : faultKeptOrRaised s t := by
  cases i with
  | hlt => cases ht; exact .inl rfl
  | ldi r imm =>
    rcases execLdi_cases r imm s with ⟨_, -, -, h⟩ | ⟨-, h⟩
    all_goals cases h.symm.trans ht
    · exact .inl rfl
    · exact faultKeptOrRaised_raise s (by decide) _
  | prn r =>
    rcases execPrn_cases r s with ⟨_, -, -, h⟩ | ⟨-, h⟩
    all_goals cases h.symm.trans ht
    · exact .inl rfl
    · exact faultKeptOrRaised_raise s (by decide) _
  | add a b => exact aluInstr_faultKeptOrRaised (k := .add) ht
  | mul a b => exact aluInstr_faultKeptOrRaised (k := .mul) ht
  | cmp a b => exact aluInstr_faultKeptOrRaised (k := .cmp) ht
  | and a b => exact aluInstr_faultKeptOrRaised (k := .and) ht
  | or a b => exact aluInstr_faultKeptOrRaised (k := .or) ht
  | xor a b => exact aluInstr_faultKeptOrRaised (k := .xor) ht
  | push r =>
    rcases execPush_cases r s with ⟨_, -, -, -, -, h⟩ | ⟨-, h⟩ | ⟨-, -, -, h⟩
    all_goals cases h.symm.trans ht
    · exact .inl rfl
    all_goals exact faultKeptOrRaised_raise s (by decide) _
  | pop r =>
    rcases execPop_cases r s with ⟨_, -, -, ⟨-, h⟩ | ⟨-, h⟩⟩ | ⟨-, h⟩
    all_goals cases h.symm.trans ht
    · exact .inl rfl
    all_goals exact faultKeptOrRaised_raise s (by decide) _
  | call r =>
    rcases execCall_cases r s with ⟨_, -, -, -, -, -, h⟩ | ⟨-, h⟩ | ⟨-, -, h⟩ | ⟨-, -, -, -, h⟩
    all_goals cases h.symm.trans ht
    · exact .inl rfl
    all_goals exact faultKeptOrRaised_raise s (by decide) _
  | ret =>
    rcases execRet_cases s with ⟨-, h⟩ | ⟨-, h⟩
    all_goals cases h.symm.trans ht
    · exact .inl rfl
    · exact faultKeptOrRaised_raise s (by decide) _
  | jmp r =>
    rcases execJmp_cases r s with ⟨_, -, -, h⟩ | ⟨-, h⟩
    all_goals cases h.symm.trans ht
    · exact .inl rfl
    · exact faultKeptOrRaised_raise s (by decide) _
  | jeq r => exact jumpIf_faultKeptOrRaised (c := flagE s.fl) ht
  | jne r => exact jumpIf_faultKeptOrRaised (c := !flagE s.fl) ht

/-- Writing IR before the rest of the step changes neither the record nor its address. -/
theorem faultKeptOrRaised_of_ir {s t : State} {b : Byte} (h : faultKeptOrRaised { s with ir := b } t) :
    faultKeptOrRaised s t := h

/-- The dispatcher raises BOUNDS_FETCH and UNSUPPORTED_INSTRUCTION only; the rest of a step is the instruction's. -/
theorem step_faultKeptOrRaised {s t : State} (ht : step s = .next t) : faultKeptOrRaised s t := by
  obtain ⟨-, ⟨-, rfl⟩ | ⟨-, ⟨-, rfl⟩ | ⟨_, -, ⟨-, rfl⟩ | ⟨-, _, _, -, -, -, hexec⟩⟩⟩⟩ := step_next_cases ht
  · exact faultKeptOrRaised_raise s (by decide) _
  · exact faultKeptOrRaised_of_ir (faultKeptOrRaised_raise _ (by decide) _)
  · exact faultKeptOrRaised_of_ir (faultKeptOrRaised_raise _ (by decide) _)
  · exact faultKeptOrRaised_of_ir (exec_faultKeptOrRaised hexec)

/-- Settles O37: neither the dispatcher nor an instruction writes a record of ALU_FAULT, so one that is there was kept. -/
theorem aluFaultIsNeverRaised : Obligations.AluFaultIsNeverRaised :=
  fun _ _ _ hf hkind =>
    ⟨fun hstep => (step_faultKeptOrRaised hstep).fault_of_aluFault hf hkind,
      fun _ hexec => (exec_faultKeptOrRaised hexec).fault_of_aluFault hf hkind⟩

end Sys2Proof.Machine
end

section
/-!
PROOF. Decoder and encoder against each other (spec/30_encoding.md R45 to R53, spec/40_step_cycle.md R64): the round trip
in both directions, the instruction that is cut off, and the bytes outside the table.
-/

namespace Sys2Proof

/-- Under a table of distinct bytes the opcode byte leads to its own row and only the operand bytes are left to take. -/
theorem decodeWith_opcode {t : OpcodeTable} (ht : tableDistinct t) (o : Op) (rest : List Byte) :
    decodeWith t (t o :: rest) = takeOperands o rest := by
  simp only [decodeWith, lookupOp_distinct ht]

/-- An instruction's own operand bytes are taken whole, and what follows them is left. -/
theorem takeOperands_operands (i : Instr) (rest : List Byte) : takeOperands i.op (i.operands ++ rest) = .ok i rest := by
  cases i <;> rfl

theorem decodeWith_encodeWith {t : OpcodeTable} (ht : tableDistinct t) (i : Instr) (rest : List Byte) :
    decodeWith t (encodeWith t i ++ rest) = .ok i rest := calc
  decodeWith t (encodeWith t i ++ rest) = takeOperands i.op (i.operands ++ rest) := decodeWith_opcode ht i.op _
  _ = .ok i rest := takeOperands_operands i rest

/-- The core's own decoder inverts the core's own encoder. -/
theorem decode_encode (i : Instr) (rest : List Byte) : decode (encode i ++ rest) = .ok i rest :=
  decodeWith_encodeWith tableDistinct_opcodeTable i rest

/-- Settles O6: the table's distinct bytes give the row, and the row's format takes exactly the operand bytes. -/
theorem decodeOfEncodeUnderAnyDistinctTable : Obligations.DecodeOfEncodeUnderAnyDistinctTable :=
  fun _ ht i rest => decodeWith_encodeWith ht i rest

/-- Where operand bytes were taken, they are the bytes that stood there and the row is the instruction's. -/
theorem takeOperands_ok {o : Op} {bytes rest : List Byte} {i : Instr} (h : takeOperands o bytes = .ok i rest) :
    i.op = o ∧ bytes = i.operands ++ rest := by
  rcases takeOperands_cases o bytes with ⟨j, rest', hj, hop, hbytes⟩ | ⟨-, hm⟩
  · cases hj.symm.trans h
    exact ⟨hop, hbytes⟩
  · cases hm.symm.trans h

theorem eq_encodeWith_of_decodeWith_ok {t : OpcodeTable} {bytes rest : List Byte} {i : Instr}
    (h : decodeWith t bytes = .ok i rest) : bytes = encodeWith t i ++ rest := by
  cases bytes with
  | nil => cases h
  | cons b tl =>
    cases hl : lookupOp t b with
    | none => simp only [decodeWith, hl] at h; cases h
    | some o =>
      simp only [decodeWith, hl] at h
      obtain ⟨hop, htl⟩ := takeOperands_ok h
      rw [encodeWith, hop, lookupOp_some hl, htl, List.cons_append]

/-- Settles O7: the row found has the first byte, and the operands taken are the bytes after it. -/
theorem decodedBytesAreTheEncoding : Obligations.DecodedBytesAreTheEncoding :=
  fun _ _ _ _ h => eq_encodeWith_of_decodeWith_ok h

/-- With fewer bytes than the row has operands, the first one that is not there is named (R64). -/
theorem takeOperands_short {o : Op} {bytes : List Byte} (h : bytes.length < o.operandCount) :
    takeOperands o bytes = .missingOperand (bytes.length + 1) := by
  rcases takeOperands_cases o bytes with ⟨i, rest, -, hop, hbytes⟩ | ⟨-, hm⟩
  · have : o.operandCount ≤ bytes.length := by
      rw [hbytes, List.length_append, Instr.operands_length, hop]
      exact Nat.le_add_right _ _
    omega
  · exact hm

/-- Settles O8: the first `n` operand bytes are `n` bytes, fewer than the row has. -/
theorem cutOffInstructionNamesItsMissingOperand : Obligations.CutOffInstructionNamesItsMissingOperand := by
  intro t ht i n hn
  have hlen : (i.operands.take n).length = n := List.length_take_of_le hn.le
  have hshort : (i.operands.take n).length < i.op.operandCount := by rwa [hlen, ← Instr.operands_length]
  rw [decodeWith_opcode ht, takeOperands_short hshort, hlen]

theorem lookupOp_eq_none_iff {t : OpcodeTable} {b : Byte} : lookupOp t b = none ↔ ∀ o : Op, t o ≠ b := by
  refine ⟨lookupOp_none, fun h => ?_⟩
  cases hl : lookupOp t b with
  | none => rfl
  | some o => exact absurd (lookupOp_some hl) (h o)

/-- A byte is unsupported exactly when it is in no row: a row that is found answers something else (R51). -/
theorem decode_cons_eq_unsupported_iff (b : Byte) (rest : List Byte) :
    decode (b :: rest) = .unsupported b ↔ ∀ o : Op, opcodeTable o ≠ b := by
  rw [← lookupOp_eq_none_iff, decode, decodeWith]
  cases lookupOp opcodeTable b with
  | none => exact iff_of_true rfl rfl
  | some o =>
    refine iff_of_false ?_ nofun
    rcases takeOperands_cases o rest with ⟨_, _, h, -, -⟩ | ⟨-, h⟩
    all_goals exact fun hu => nomatch h.symm.trans hu

/-- No row has a byte exactly when the byte is not among those of all rows. -/
theorem opcodeTable_ne_iff_not_mem (b : Byte) : (∀ o : Op, opcodeTable o ≠ b) ↔ b ∉ Op.all.map opcodeTable := by
  simp [Op.mem_all]

/-- Settles O9: the sixteen values written out are the bytes of the table's rows, in order. -/
theorem theOther240BytesAreUnsupported : Obligations.TheOther240BytesAreUnsupported := by
  refine ⟨fun b rest => ?_, by decide⟩
  rw [decode_cons_eq_unsupported_iff, opcodeTable_ne_iff_not_mem]
  exact Iff.rfl

/-- Settles O10: each word is a row's byte and operand bytes of that row's format, and all ones is in no row. -/
theorem wordsOfTheSpecDecode : Obligations.WordsOfTheSpecDecode := by
  refine ⟨decode_encode .hlt [0xFF], decode_encode (.ldi 0x03 0x2A) [], decode_encode (.prn 0x05) [],
    decode_encode (.add 0x02 0x01) [], decode_encode (.cmp 0x06 0x07) [], decode_encode (.push 0x80) [],
    decode_encode .ret [], decode_encode (.jeq 0x04) [], ?_⟩
  exact (decode_cons_eq_unsupported_iff _ _).2 opcodeTable_ne_allOnes

/-! ### Lengths -/

theorem Op.operandCount_le_two (o : Op) : o.operandCount ≤ 2 := by cases o <;> decide

theorem Instr.length_eq (i : Instr) : i.length = 1 + i.op.operandCount := by rw [Instr.length, Instr.operands_length]

theorem encode_length (i : Instr) : (encode i).length = i.length := Nat.add_comm _ _

end Sys2Proof
end

section
/-!
PROOF. Memory and the loader (spec/20_memory.md R31, R32, spec/70_reset_and_hazards.md R126): the checked access, the
uniqueness of the canonical form (log 19), and what the loader leaves at every address.
-/

namespace Sys2Proof.Machine

/-- Settles O3: the checks are the bound 255, and inside it the laws of the plain write apply. -/
theorem checkedWriteIsReadBackAndLocal : Obligations.CheckedWriteIsReadBackAndLocal := by
  intro m a v hwf
  refine ⟨fun ha => ⟨m.write a v, ?_, ?_, fun b hb => ?_, Memory.wf_write hwf v (by omega)⟩, fun ha => ⟨?_, ?_⟩⟩
  · exact if_pos (Nat.lt_succ_of_le ha)
  · rw [Memory.readChecked_lt _ (by omega), Memory.read_write_eq hwf]
  · simp only [Memory.readChecked, Memory.read_write_ne m v hb]
  · exact if_neg (Nat.not_lt.2 ha)
  · exact Memory.readChecked_ge m ha

/-! ### The canonical form is unique -/

theorem Memory.read_entry (b : Nat) (v : Byte) (m : Memory) (a : Nat) :
    Memory.read ((b, v) :: m) a = if a = b then v else m.read a := rfl

/-- The first entry of a canonical list is seen: its address reads as something other than an unlisted address does. -/
theorem Memory.exists_read_ne_of_entry {lo a : Nat} {v : Byte} {m : Memory}
    (h : Memory.wfFrom lo ((a, v) :: m) = true) : a ≤ 255 ∧ Memory.read ((a, v) :: m) a ≠ 0x00 := by
  obtain ⟨-, ha, hv, -⟩ := (Memory.wfFrom_entry lo a v m).1 h
  rw [Memory.read_entry, if_pos rfl]
  exact ⟨by omega, hv⟩

/-- Of two canonical lists that read alike, the second cannot begin at a higher address than the first: it would read as
unlisted where the first has its first entry. -/
theorem Memory.head_le_of_read_eq {lo lo' a b : Nat} {v w : Byte} {m m' : Memory}
    (h : Memory.wfFrom lo ((a, v) :: m) = true) (h' : Memory.wfFrom lo' ((b, w) :: m') = true)
    (heq : ∀ x, x ≤ 255 → Memory.read ((a, v) :: m) x = Memory.read ((b, w) :: m') x) : b ≤ a := by
  by_contra hlt
  obtain ⟨ha, hne⟩ := Memory.exists_read_ne_of_entry h
  obtain ⟨-, hb, hw, hm'⟩ := (Memory.wfFrom_entry lo' b w m').1 h'
  have hfrom : Memory.wfFrom b ((b, w) :: m') = true := (Memory.wfFrom_entry b b w m').2 ⟨le_rfl, hb, hw, hm'⟩
  exact hne ((heq a ha).trans (Memory.read_below hfrom (Nat.lt_of_not_le hlt)))

/-- Behind equal first addresses the rests read alike too: at the first address both are unlisted. -/
theorem Memory.tail_read_eq {a : Nat} {v w : Byte} {m m' : Memory} (h : Memory.wfFrom (a + 1) m = true)
    (h' : Memory.wfFrom (a + 1) m' = true)
    (heq : ∀ x, x ≤ 255 → Memory.read ((a, v) :: m) x = Memory.read ((a, w) :: m') x) :
    ∀ x, x ≤ 255 → m.read x = m'.read x := by
  intro x hx
  by_cases hxa : x = a
  · rw [Memory.read_below h (by omega), Memory.read_below h' (by omega)]
  · simpa only [Memory.read_entry, if_neg hxa] using heq x hx

/-- Canonical lists that read alike agree entry by entry. -/
theorem Memory.eq_of_read_eq {lo : Nat} {m m' : Memory} (h : Memory.wfFrom lo m = true)
    (h' : Memory.wfFrom lo m' = true) (heq : ∀ x, x ≤ 255 → m.read x = m'.read x) : m = m' := by
  induction m generalizing lo m' with
  | nil =>
    rcases m' with _ | ⟨⟨b, w⟩, m'⟩
    · rfl
    · obtain ⟨hb, hne⟩ := Memory.exists_read_ne_of_entry h'
      exact absurd (heq b hb).symm hne
  | cons e m ih =>
    obtain ⟨a, v⟩ := e
    rcases m' with _ | ⟨⟨b, w⟩, m'⟩
    · obtain ⟨ha, hne⟩ := Memory.exists_read_ne_of_entry h
      exact absurd (heq a ha) hne
    · obtain rfl : a = b := Nat.le_antisymm (Memory.head_le_of_read_eq h' h fun x hx => (heq x hx).symm)
        (Memory.head_le_of_read_eq h h' heq)
      obtain ⟨-, ha, -, hm⟩ := (Memory.wfFrom_entry lo a v m).1 h
      obtain ⟨-, -, -, hm'⟩ := (Memory.wfFrom_entry lo a w m').1 h'
      have hvw : v = w := by simpa only [Memory.read_entry, if_true] using heq a (by omega)
      rw [hvw, ih hm hm' (Memory.tail_read_eq hm hm' heq)]

/-- Settles O4, by induction on the entries: each list's first entry is seen in the other, so the two agree. -/
theorem canonicalMemoriesThatReadAlikeAreEqual : Obligations.CanonicalMemoriesThatReadAlikeAreEqual :=
  fun _ _ h h' heq => Memory.eq_of_read_eq h h' heq

/-! ### The loader -/

theorem State.placeBytes_cons (s : State) {a : Nat} (ha : a < 256) (b : Byte) (l : List Byte) :
    s.placeBytes a (b :: l) = (State.placeBytes { s with mem := s.mem.write a b } (a + 1) l) := by
  rw [State.placeBytes, Memory.writeChecked, Config.memSize, if_pos ha]

/-- Bytes are placed upward, so an address below keeps its byte. -/
theorem State.placeBytes_read_below (s : State) {a x : Nat} (hx : x < a) (l : List Byte) (hl : a + l.length ≤ 256) :
    (s.placeBytes a l).mem.read x = s.mem.read x := by
  induction l generalizing s a with
  | nil => rfl
  | cons b l ih =>
    rw [List.length_cons] at hl
    rw [State.placeBytes_cons s (by omega), ih _ (by omega) (by omega)]
    exact Memory.read_write_ne s.mem b (by omega)

/-- From `a` on, memory shows the bytes placed and behind them what it showed before. -/
theorem State.placeBytes_read (s : State) (hwf : s.mem.wf = true) (a : Nat) (l : List Byte) (hl : a + l.length ≤ 256)
    (k : Nat) : (s.placeBytes a l).mem.read (a + k) = l.getD k (s.mem.read (a + k)) := by
  induction l generalizing s a k with
  | nil => rfl
  | cons b l ih =>
    rw [List.length_cons] at hl
    rw [State.placeBytes_cons s (by omega)]
    cases k with
    | zero =>
      exact (State.placeBytes_read_below _ a.lt_add_one l (by omega)).trans (Memory.read_write_eq hwf a b)
    | succ k =>
      have hrest := ih { s with mem := s.mem.write a b } (Memory.wf_write hwf b (by omega)) (a + 1) (by omega) k
      rw [show a + (k + 1) = a + 1 + k by omega, hrest, Memory.read_write_ne s.mem b (by omega), List.getD_cons_succ]

/-- Settles O2: placing from address 0 over reset memory shows the image and then zeros, and writes memory only. -/
theorem loaderPlacesTheImageAndNothingElse : Obligations.LoaderPlacesTheImageAndNothingElse := by
  refine fun image => ⟨fun hlen => ⟨State.reset.placeBytes 0 image, if_pos hlen, fun a => ?_, ?_, ?_⟩, fun hlen => ?_⟩
  · have hread := State.reset.placeBytes_read State.reset_mem_wf 0 image (by omega) a
    rwa [Nat.zero_add] at hread
  · exact State.placeBytes_wf State.reset_mem_wf 0 image
  · rw [State.placeBytes_eq]
    exact ⟨rfl, rfl, rfl, rfl, rfl, rfl, rfl⟩
  · exact if_neg (Nat.not_le.2 hlen)

end Sys2Proof.Machine
end

section
/-!
PROOF. What an instruction does, as a relation: `Effect` where it takes effect and `Raises` where it raises a fault, each
with the condition of the spec (spec/41_system_data.md to spec/44_control.md, spec/60_exceptions.md R109 to R112). `exec`
answers one of the two (`effect_or_raises_of_exec`) and the conditions decide which (`Effect.exec`, `Raises.exec`), so facts
about every instruction are proved by cases on them.
-/

namespace Sys2Proof.Machine

/-- The instruction that an ALU operation belongs to (R75). -/
def AluKind.instr : AluKind → Byte → Byte → Instr
  | .add => .add
  | .mul => .mul
  | .cmp => .cmp
  | .and => .and
  | .or => .or
  | .xor => .xor

@[simp] theorem AluKind.regOperands_instr (k : AluKind) (a b : Byte) : (k.instr a b).regOperands = [a, b] := by
  cases k <;> rfl

@[simp] theorem AluKind.operands_instr (k : AluKind) (a b : Byte) : (k.instr a b).operands = [a, b] := by
  cases k <;> rfl

@[simp] theorem AluKind.setsPc_op_instr (k : AluKind) (a b : Byte) : (k.instr a b).op.setsPc = false := by
  cases k <;> rfl

theorem exec_aluKind_instr (k : AluKind) (a b : Byte) (s : State) : exec (k.instr a b) s = aluInstr k a b s := by
  cases k <;> rfl

/-- The state that instruction `i` makes of `s` where it raises no fault. -/
inductive Effect (s : State) : Instr → State → Prop
  /-- R70. -/
  | hlt : Effect s .hlt (s.halt.advance 1)
  /-- R71. -/
  | ldi {b v : Byte} {r : RegIx} (hr : regIdx b = some r) : Effect s (.ldi b v) ((s.setReg r v).advance 3)
  /-- R72. -/
  | prn {b : Byte} {r : RegIx} (hr : regIdx b = some r) : Effect s (.prn b) ((s.emit (s.reg r)).advance 2)
  /-- R76 to R81. -/
  | alu (k : AluKind) {a b : Byte} {x y : RegIx} (hx : regIdx a = some x) (hy : regIdx b = some y) :
      Effect s (k.instr a b) ((s.putAlu x (alu k (s.reg x) (s.reg y))).advance 3)
  /-- R91. -/
  | push {b : Byte} {r : RegIx} (hr : regIdx b = some r) (hsp : s.reg 7 ≠ 0x00) :
      Effect s (.push b) (((s.setSp (s.reg 7 - 1)).storeByte (s.reg 7 - 1)
        (if r = 7 then s.reg 7 - 1 else s.reg r)).advance 2)
  /-- R92. -/
  | pop {b : Byte} {r : RegIx} (hr : regIdx b = some r) (hp : popPointer r s ≠ 0xFF) :
      Effect s (.pop b) (((s.setReg r (s.mem.read (s.reg 7).toNat)).setSp (popPointer r s + 1)).advance 2)
  /-- R96. -/
  | call {b : Byte} {r : RegIx} (hr : regIdx b = some r) (hpc : s.pc.toNat ≤ 253) (hsp : s.reg 7 ≠ 0x00) :
      Effect s (.call b) (((s.setSp (s.reg 7 - 1)).storeByte (s.reg 7 - 1) (trunc8 (s.pc.toNat + 2))).jump
        (if r = 7 then s.reg 7 - 1 else s.reg r))
  /-- R97. -/
  | ret (hsp : s.reg 7 ≠ 0xFF) : Effect s .ret ((s.setSp (s.reg 7 + 1)).jump (s.mem.read (s.reg 7).toNat))
  /-- R98. -/
  | jmp {b : Byte} {r : RegIx} (hr : regIdx b = some r) : Effect s (.jmp b) (s.jump (s.reg r))
  /-- R99, taken. -/
  | jeqTaken {b : Byte} {r : RegIx} (hr : regIdx b = some r) (he : flagE s.fl = true) :
      Effect s (.jeq b) (s.jump (s.reg r))
  /-- R99, not taken. -/
  | jeqPassed {b : Byte} {r : RegIx} (hr : regIdx b = some r) (he : flagE s.fl = false) :
      Effect s (.jeq b) (s.advance 2)
  /-- R100, taken. -/
  | jneTaken {b : Byte} {r : RegIx} (hr : regIdx b = some r) (he : flagE s.fl = false) :
      Effect s (.jne b) (s.jump (s.reg r))
  /-- R100, not taken. -/
  | jnePassed {b : Byte} {r : RegIx} (hr : regIdx b = some r) (he : flagE s.fl = true) :
      Effect s (.jne b) (s.advance 2)

/-- The fault that instruction `i` raises in `s`, the conditions as R106 and R115 give them. -/
inductive Raises (s : State) : Instr → FaultKind → Word9 → Prop
  /-- R109, the first register operand. -/
  | firstReg {i : Instr} {b : Byte} {rest : List Byte} (hi : i.regOperands = b :: rest) (hb : 7 < b.toNat) :
      Raises s i .boundsRegister (zext9 b)
  /-- R109, the second register operand. -/
  | secondReg {i : Instr} {a b : Byte} (hi : i.regOperands = [a, b]) (ha : a.toNat ≤ 7) (hb : 7 < b.toNat) :
      Raises s i .boundsRegister (zext9 b)
  /-- R112. -/
  | returnAddress {b : Byte} (hb : b.toNat ≤ 7) (hpc : 253 < s.pc.toNat) :
      Raises s (.call b) .boundsReturnAddress (BitVec.ofNat 9 (s.pc.toNat + 2))
  /-- R110, PUSH. -/
  | pushLow {b : Byte} (hb : b.toNat ≤ 7) (hsp : s.reg 7 = 0x00) : Raises s (.push b) .boundsStackLow 0x00
  /-- R110, CALL. -/
  | callLow {b : Byte} (hb : b.toNat ≤ 7) (hpc : s.pc.toNat ≤ 253) (hsp : s.reg 7 = 0x00) :
      Raises s (.call b) .boundsStackLow 0x00
  /-- R111, POP. -/
  | popHigh {b : Byte} {r : RegIx} (hr : regIdx b = some r) (hp : popPointer r s = 0xFF) :
      Raises s (.pop b) .boundsStackHigh 0xFF
  /-- R111, RET. -/
  | retHigh (hsp : s.reg 7 = 0xFF) : Raises s .ret .boundsStackHigh 0xFF

/-! ### Every instruction takes effect or raises a fault -/

theorem aluInstr_effect_or_raises (k : AluKind) (a b : Byte) (s : State) :
    (∃ t, Effect s (k.instr a b) t ∧ aluInstr k a b s = .next t) ∨
      ∃ f info, Raises s (k.instr a b) f info ∧ aluInstr k a b s = .next (s.raise f info) := by
  rcases aluInstr_cases k a b s with ⟨x, y, hx, -, hy, -, h⟩ | ⟨ha, h⟩ | ⟨ha, hb, h⟩
  · exact .inl ⟨_, .alu k hx hy, h⟩
  · exact .inr ⟨_, _, .firstReg (k.regOperands_instr a b) ha, h⟩
  · exact .inr ⟨_, _, .secondReg (k.regOperands_instr a b) ha hb, h⟩

theorem exec_effect_or_raises (i : Instr) (s : State) :
    (∃ t, Effect s i t ∧ exec i s = .next t) ∨ ∃ k info, Raises s i k info ∧ exec i s = .next (s.raise k info) := by
  cases i with
  | hlt => exact .inl ⟨_, .hlt, rfl⟩
  | ldi b v =>
    rcases execLdi_cases b v s with ⟨_, hr, -, h⟩ | ⟨hb, h⟩
    · exact .inl ⟨_, .ldi hr, h⟩
    · exact .inr ⟨_, _, .firstReg rfl hb, h⟩
  | prn b =>
    rcases execPrn_cases b s with ⟨_, hr, -, h⟩ | ⟨hb, h⟩
    · exact .inl ⟨_, .prn hr, h⟩
    · exact .inr ⟨_, _, .firstReg rfl hb, h⟩
  | add a b => exact aluInstr_effect_or_raises .add a b s
  | mul a b => exact aluInstr_effect_or_raises .mul a b s
  | cmp a b => exact aluInstr_effect_or_raises .cmp a b s
  | and a b => exact aluInstr_effect_or_raises .and a b s
  | or a b => exact aluInstr_effect_or_raises .or a b s
  | xor a b => exact aluInstr_effect_or_raises .xor a b s
  | push b =>
    rcases execPush_cases b s with ⟨_, hr, -, hsp, -, h⟩ | ⟨hb, h⟩ | ⟨hb, hsp, -, h⟩
    · exact .inl ⟨_, .push hr hsp, h⟩
    · exact .inr ⟨_, _, .firstReg rfl hb, h⟩
    · exact .inr ⟨_, _, .pushLow hb hsp, h⟩
  | pop b =>
    rcases execPop_cases b s with ⟨_, hr, -, ⟨hp, h⟩ | ⟨hp, h⟩⟩ | ⟨hb, h⟩
    · exact .inl ⟨_, .pop hr hp, h⟩
    · exact .inr ⟨_, _, .popHigh hr hp, h⟩
    · exact .inr ⟨_, _, .firstReg rfl hb, h⟩
  | call b =>
    rcases execCall_cases b s with ⟨_, hr, -, hpc, hsp, -, h⟩ | ⟨hb, h⟩ | ⟨hb, hpc, h⟩ | ⟨hb, hpc, hsp, -, h⟩
    · exact .inl ⟨_, .call hr hpc hsp, h⟩
    · exact .inr ⟨_, _, .firstReg rfl hb, h⟩
    · exact .inr ⟨_, _, .returnAddress hb hpc, h⟩
    · exact .inr ⟨_, _, .callLow hb hpc hsp, h⟩
  | ret =>
    rcases execRet_cases s with ⟨hsp, h⟩ | ⟨hsp, h⟩
    · exact .inl ⟨_, .ret hsp, h⟩
    · exact .inr ⟨_, _, .retHigh hsp, h⟩
  | jmp b =>
    rcases execJmp_cases b s with ⟨_, hr, -, h⟩ | ⟨hb, h⟩
    · exact .inl ⟨_, .jmp hr, h⟩
    · exact .inr ⟨_, _, .firstReg rfl hb, h⟩
  | jeq b =>
    rw [exec_jeq_eq]
    rcases jumpIf_cases (flagE s.fl) b s with ⟨_, hr, -, h⟩ | ⟨hb, h⟩
    · cases he : flagE s.fl with
      | true => exact .inl ⟨_, .jeqTaken hr he, by simpa [he] using h⟩
      | false => exact .inl ⟨_, .jeqPassed hr he, by simpa [he] using h⟩
    · exact .inr ⟨_, _, .firstReg rfl hb, h⟩
  | jne b =>
    rw [exec_jne_eq]
    rcases jumpIf_cases (!flagE s.fl) b s with ⟨_, hr, -, h⟩ | ⟨hb, h⟩
    · cases he : flagE s.fl with
      | true => exact .inl ⟨_, .jnePassed hr he, by simpa [he] using h⟩
      | false => exact .inl ⟨_, .jneTaken hr he, by simpa [he] using h⟩
    · exact .inr ⟨_, _, .firstReg rfl hb, h⟩

theorem effect_or_raises_of_exec {i : Instr} {s t : State} (ht : exec i s = .next t) :
    Effect s i t ∨ ∃ k info, Raises s i k info ∧ t = s.raise k info := by
  rcases exec_effect_or_raises i s with ⟨u, hu, h⟩ | ⟨k, info, hk, h⟩
  all_goals cases h.symm.trans ht
  · exact .inl hu
  · exact .inr ⟨k, info, hk, rfl⟩

/-! ### The conditions decide which of the two -/

theorem withReg_some {b : Byte} {r : RegIx} (hr : regIdx b = some r) (s : State) (k : RegIx → Result) :
    withReg b s k = k r := withReg_legal ((regIdx_eq_some_iff b r).1 hr) s k

theorem withPush_pos {s : State} (hsp : s.reg 7 ≠ 0x00) (k : Byte → State → Result) :
    withPush s k = k (s.reg 7 - 1) (s.setSp (s.reg 7 - 1)) := by
  simp only [withPush, State.pushAddr_pos hsp]

theorem withPush_zero {s : State} (hsp : s.reg 7 = 0x00) (k : Byte → State → Result) :
    withPush s k = .next (s.raise .boundsStackLow 0x00) := by
  simp only [withPush, State.pushAddr_zero hsp, State.sp_eq, hsp]
  rfl

theorem exec_call_some {b : Byte} {r : RegIx} (hr : regIdx b = some r) {s : State} (hpc : s.pc.toNat ≤ 253) :
    exec (.call b) s = withPush s fun a t => .next ((t.storeByte a (trunc8 (returnAddr s))).jump (t.reg r)) :=
  (withReg_some hr s _).trans (if_neg (by unfold returnAddr; omega))

theorem Effect.exec {i : Instr} {s t : State} (h : Effect s i t) : exec i s = .next t := by
  cases h with
  | hlt => rfl
  | ldi hr => exact withReg_some hr s _
  | prn hr => exact withReg_some hr s _
  | alu k hx hy => exact (exec_aluKind_instr k _ _ s).trans ((withReg_some hx s _).trans (withReg_some hy s _))
  | push hr hsp =>
    rw [← State.setSp_reg]
    exact (withReg_some hr s _).trans (withPush_pos hsp _)
  | pop hr hp => exact (withReg_some hr s _).trans (if_neg hp)
  | call hr hpc hsp =>
    rw [← State.setSp_reg]
    exact (exec_call_some hr hpc).trans (withPush_pos hsp _)
  | ret hsp => exact if_neg hsp
  | jmp hr => exact withReg_some hr s _
  | jeqTaken hr he => exact (withReg_some hr s _).trans (by rw [he]; rfl)
  | jeqPassed hr he => exact (withReg_some hr s _).trans (by rw [he]; rfl)
  | jneTaken hr he => exact (withReg_some hr s _).trans (by rw [he]; rfl)
  | jnePassed hr he => exact (withReg_some hr s _).trans (by rw [he]; rfl)

/-- Whatever the instruction, its first register operand is checked before anything else (R115). -/
theorem exec_firstReg_illegal {i : Instr} {b : Byte} {rest : List Byte} (hi : i.regOperands = b :: rest)
    (hb : 7 < b.toNat) (s : State) : exec i s = .next (s.raise .boundsRegister (zext9 b)) := by
  cases i with
  | hlt | ret => cases hi
  | _ => cases hi; exact withReg_illegal hb s _

/-- Only an ALU instruction has two register operands. -/
theorem exists_aluKind_of_regOperands {i : Instr} {a b : Byte} (hi : i.regOperands = [a, b]) :
    ∃ k : AluKind, i = k.instr a b := by
  cases i with
  | add => cases hi; exact ⟨.add, rfl⟩
  | mul => cases hi; exact ⟨.mul, rfl⟩
  | cmp => cases hi; exact ⟨.cmp, rfl⟩
  | and => cases hi; exact ⟨.and, rfl⟩
  | or => cases hi; exact ⟨.or, rfl⟩
  | xor => cases hi; exact ⟨.xor, rfl⟩
  | _ => cases hi

theorem Raises.exec {i : Instr} {s : State} {k : FaultKind} {info : Word9} (h : Raises s i k info) :
    exec i s = .next (s.raise k info) := by
  cases h with
  | firstReg hi hb => exact exec_firstReg_illegal hi hb s
  | secondReg hi ha hb =>
    obtain ⟨k, rfl⟩ := exists_aluKind_of_regOperands hi
    obtain ⟨x, hx, -⟩ := regIdx_legal ha
    exact (exec_aluKind_instr k _ _ s).trans ((withReg_some hx s _).trans (withReg_illegal hb s _))
  | returnAddress hb hpc =>
    obtain ⟨r, hr, -⟩ := regIdx_legal hb
    exact (withReg_some hr s _).trans (if_pos (by unfold returnAddr; omega))
  | pushLow hb hsp =>
    obtain ⟨r, hr, -⟩ := regIdx_legal hb
    exact (withReg_some hr s _).trans (withPush_zero hsp _)
  | callLow hb hpc hsp =>
    obtain ⟨r, hr, -⟩ := regIdx_legal hb
    exact (exec_call_some hr hpc).trans (withPush_zero hsp _)
  | popHigh hr hp => exact (withReg_some hr s _).trans ((if_pos hp).trans (by rw [hp]; rfl))
  | retHigh hsp => exact (if_pos hsp).trans (by rw [State.sp_eq, hsp]; rfl)

end Sys2Proof.Machine
end

section
/-!
PROOF. What each instruction does and what it leaves alone (spec/41_system_data.md to spec/44_control.md), read off the
effect that its operands give.
-/

namespace Sys2Proof.Machine

/-! ### The frame of the updates -/

theorem onlyRegs_refl (s : State) : onlyRegs [] s s := ⟨fun _ _ => rfl, rfl, fun _ => rfl, rfl, rfl, rfl, rfl⟩

theorem onlyRegs.setReg {l : List RegIx} {s t : State} (h : onlyRegs l s t) (r : RegIx) (v : Byte) :
    onlyRegs (l ++ [r]) s (t.setReg r v) := by
  obtain ⟨hregs, hfl, hmem, hout, hctl⟩ := h
  refine ⟨fun j hj => ?_, hfl, hmem, hout, hctl⟩
  rw [List.mem_append, List.mem_singleton, not_or] at hj
  rw [State.setReg_reg, if_neg hj.2, hregs j hj.1]

theorem onlyRegs.advance {l : List RegIx} {s t : State} (h : onlyRegs l s t) (n : Nat) : onlyRegs l s (t.advance n) := h

theorem onlyRegs.jump {l : List RegIx} {s t : State} (h : onlyRegs l s t) (b : Byte) : onlyRegs l s (t.jump b) := h

theorem onlyRegs_setReg (s : State) (r : RegIx) (v : Byte) : onlyRegs [r] s (s.setReg r v) :=
  (onlyRegs_refl s).setReg r v

theorem onlyRegs_setSp (s : State) (v : Byte) : onlyRegs [7] s (s.setSp v) := onlyRegs_setReg s 7 v

@[simp] theorem zext9_toNat (b : Byte) : (zext9 b).toNat = b.toNat := by
  rw [zext9, BitVec.toNat_setWidth]
  exact Nat.mod_eq_of_lt (by omega)

/-- A byte that is the number of a register names it. -/
theorem regIdx_of_toNat {b : Byte} {r : RegIx} (h : b.toNat = r.val) : regIdx b = some r :=
  (regIdx_eq_some_iff b r).2 h

theorem toNat_le_of_regIdx {b : Byte} {r : RegIx} (hr : regIdx b = some r) : b.toNat ≤ 7 := by
  rw [(regIdx_eq_some_iff b r).1 hr]
  exact Nat.le_of_lt_succ r.isLt

/-! ### HLT, LDI, PRN -/

/-- Settles O19: the effect of HLT is these two writes. -/
theorem hltHaltsAndAdvances : Obligations.HltHaltsAndAdvances := fun _ => Effect.hlt.exec

/-- Settles O20: the effect of LDI is one register write and the advance. -/
theorem ldiLoadsItsImmediate : Obligations.LdiLoadsItsImmediate := fun s _ imm r hb =>
  ⟨_, (Effect.ldi (regIdx_of_toNat hb)).exec, s.setReg_reg_self r imm, (onlyRegs_setReg s r imm).advance 3, rfl⟩

/-- Settles O21: the effect of PRN is one byte more on OUT and the advance. -/
theorem prnAppendsTheRegister : Obligations.PrnAppendsTheRegister := fun _ _ _ hb =>
  ⟨_, (Effect.prn (regIdx_of_toNat hb)).exec, rfl, fun _ _ => rfl, rfl, fun _ => rfl, ⟨rfl, rfl, rfl⟩, rfl⟩

/-! ### The ALU -/

/-- Every ALU operation with a result: the first register takes it (R75). -/
theorem exec_alu_result (k : AluKind) {a b : Byte} {x y : RegIx} (ha : a.toNat = x.val) (hb : b.toNat = y.val)
    {s : State} {v : Byte} (hv : alu k (s.reg x) (s.reg y) = .result v) :
    ∃ t, exec (k.instr a b) s = .next t ∧ t.reg x = v ∧ onlyRegs [x] s t ∧ t.pc = s.pc + 3 := by
  refine ⟨_, (Effect.alu k (regIdx_of_toNat ha) (regIdx_of_toNat hb)).exec, ?_⟩
  rw [hv, State.putAlu_result]
  exact ⟨s.setReg_reg_self x v, (onlyRegs_setReg s x v).advance 3, rfl⟩

theorem trunc8_toNat (n : Nat) : (trunc8 n).toNat = n % 256 := BitVec.toNat_ofNat n 8

/-- Settles O22: the result is the truncated sum or product. -/
theorem addAndMulWrapModulo256 : Obligations.AddAndMulWrapModulo256 := by
  intro s a b x y ha hb
  obtain ⟨t, ht, hval, hframe⟩ := exec_alu_result .add ha hb (s := s) rfl
  obtain ⟨u, hu, hval', hframe'⟩ := exec_alu_result .mul ha hb (s := s) rfl
  exact ⟨⟨t, ht, by rw [hval, trunc8_toNat], hframe⟩, ⟨u, hu, by rw [hval', trunc8_toNat], hframe'⟩⟩

/-- Settles O23: the result is the bit vector operation, which works bit by bit. -/
theorem logicWorksBitByBit : Obligations.LogicWorksBitByBit := by
  intro s a b x y ha hb
  obtain ⟨t, ht, hval, hframe⟩ := exec_alu_result .and ha hb (s := s) rfl
  obtain ⟨u, hu, hval', hframe'⟩ := exec_alu_result .or ha hb (s := s) rfl
  obtain ⟨v, hv, hval'', hframe''⟩ := exec_alu_result .xor ha hb (s := s) rfl
  exact ⟨⟨t, ht, fun k _ => by rw [hval, BitVec.getLsbD_and], hframe⟩,
    ⟨u, hu, fun k _ => by rw [hval', BitVec.getLsbD_or], hframe'⟩,
    ⟨v, hv, fun k _ => by rw [hval'', BitVec.getLsbD_xor], hframe''⟩⟩

theorem compareFlags_eq {va vb : Byte} (h : va.toNat = vb.toNat) : compareFlags va vb = flagsEqual := if_pos h

theorem compareFlags_gt {va vb : Byte} (h : vb.toNat < va.toNat) : compareFlags va vb = flagsGreater := by
  rw [compareFlags, if_neg (by omega), if_pos h]

theorem compareFlags_lt {va vb : Byte} (h : va.toNat < vb.toNat) : compareFlags va vb = flagsLess := by
  rw [compareFlags, if_neg (by omega), if_neg (by omega)]

/-- Settles O24: CMP writes the flags of the comparison to FL and nothing else. -/
theorem cmpSetsExactlyOneFlag : Obligations.CmpSetsExactlyOneFlag := fun _ _ _ _ _ ha hb =>
  ⟨_, (Effect.alu .cmp (regIdx_of_toNat ha) (regIdx_of_toNat hb)).exec, compareFlags_eq, compareFlags_gt,
    compareFlags_lt, fun _ _ => rfl, fun _ => rfl, rfl, ⟨rfl, rfl, rfl⟩, rfl⟩

/-! ### The stack -/

/-- A push stores: what memory and the registers are after the pointer is decremented and a byte is stored there. -/
theorem setSp_storeByte_frame {s : State} (hwf : s.mem.wf = true) (a v : Byte) :
    ((s.setSp a).storeByte a v).reg 7 = a ∧ ((s.setSp a).storeByte a v).mem.read a.toNat = v ∧
      sameMemBut a s ((s.setSp a).storeByte a v) ∧ sameRegsBut [7] s ((s.setSp a).storeByte a v) :=
  ⟨s.setSp_reg_self a, Memory.read_write_eq hwf a.toNat v, fun _ hb => Memory.read_write_ne s.mem v hb,
    (onlyRegs_setSp s a).1⟩

/-- Settles O25: PUSH decrements, stores and advances. -/
theorem pushStoresBelowTheStackPointer : Obligations.PushStoresBelowTheStackPointer := by
  intro s b r hb hwf hsp
  obtain ⟨hreg, hread, hmem, hregs⟩ := setSp_storeByte_frame hwf (s.reg 7 - 1) (if r = 7 then s.reg 7 - 1 else s.reg r)
  exact ⟨_, _, (Effect.push (regIdx_of_toNat hb) hsp).exec, State.pushAddr_pos hsp, byte_pred_toNat hsp, hreg, hread,
    hmem, hregs, rfl, rfl, ⟨rfl, rfl, rfl⟩, rfl⟩

/-- Settles O26: POP loads and then increments; for register 7 the increment is of the byte loaded. -/
theorem popLoadsFromTheStackPointer : Obligations.PopLoadsFromTheStackPointer := by
  intro s b r hb
  have hr := regIdx_of_toNat hb
  refine ⟨fun hne hsp => ?_, fun heq hbyte => ?_⟩
  · have hp := popPointer_ne hne s
    refine ⟨_, (Effect.pop hr (hp ▸ hsp)).exec, ?_, ?_, ((onlyRegs_setReg s r _).setReg 7 _).advance 2, rfl⟩
    · rw [State.advance_reg, State.setSp_reg, if_neg hne, State.setReg_reg_self]
    · rw [State.advance_reg, State.setSp_reg_self, hp, byte_succ_toNat hsp]
  · subst heq
    refine ⟨_, (Effect.pop hr hbyte).exec, ?_, ?_, rfl⟩
    · rw [State.advance_reg, State.setSp_reg_self, popPointer_seven, byte_succ_toNat hbyte]
    · obtain ⟨hregs, hrest⟩ := ((onlyRegs_setReg s 7 (s.mem.read (s.reg 7).toNat)).setReg 7
        (popPointer 7 s + 1)).advance 2
      exact ⟨fun j hj => hregs j (by simpa using hj), hrest⟩

/-! ### Control -/

/-- Settles O27: CALL decrements, stores the return address and jumps. -/
theorem callPushesItsReturnAddress : Obligations.CallPushesItsReturnAddress := by
  intro s b r hb hwf hpc hsp
  obtain ⟨hreg, hread, hmem, hregs⟩ := setSp_storeByte_frame hwf (s.reg 7 - 1) (trunc8 (s.pc.toNat + 2))
  refine ⟨_, _, (Effect.call (regIdx_of_toNat hb) hpc hsp).exec, State.pushAddr_pos hsp, byte_pred_toNat hsp, hreg, ?_,
    zext9_toNat _, hmem, hregs, rfl, rfl, rfl, rfl, rfl⟩
  rw [State.jump_mem, hread, trunc8_toNat]
  omega

/-- Settles O28: RET loads PC and increments the pointer. -/
theorem retPopsPc : Obligations.RetPopsPc := by
  intro s hsp
  refine ⟨_, (Effect.ret hsp).exec, zext9_toNat _, ?_, (onlyRegs_setSp s _).jump _⟩
  rw [State.jump_reg, State.setSp_reg_self, byte_succ_toNat hsp]

/-- Settles O29: the flag decides between the jump and the advance, and both write PC only. -/
theorem jumpsSetPcFromTheRegister : Obligations.JumpsSetPcFromTheRegister := by
  intro s b r hb
  have hr := regIdx_of_toNat hb
  have hjump : onlyRegs [] s (s.jump (s.reg r)) := (onlyRegs_refl s).jump _
  have hpass : onlyRegs [] s (s.advance 2) := (onlyRegs_refl s).advance 2
  have hpc : (s.jump (s.reg r)).pc.toNat = (s.reg r).toNat := zext9_toNat _
  refine ⟨⟨_, (Effect.jmp hr).exec, hpc, hjump⟩, ?_⟩
  cases he : s.fl.getLsbD 0 with
  | true =>
    exact ⟨⟨_, (Effect.jeqTaken hr he).exec, hjump, fun _ => hpc, nofun⟩,
      ⟨_, (Effect.jnePassed hr he).exec, hpass, nofun, fun _ => rfl⟩⟩
  | false =>
    exact ⟨⟨_, (Effect.jeqPassed hr he).exec, hpass, nofun, fun _ => rfl⟩,
      ⟨_, (Effect.jneTaken hr he).exec, hjump, fun _ => hpc, nofun⟩⟩

end Sys2Proof.Machine
end

section
/-!
PROOF. The faults of the instructions (spec/10_state.md R14, spec/60_exceptions.md R109 to R112), read off the conditions
under which an instruction raises one.
-/

namespace Sys2Proof.Machine

/-- Settles O30: the register operand is legal exactly up to 7. -/
theorem regIdxIsLegalExactlyUpToSeven : Obligations.RegIdxIsLegalExactlyUpToSeven := by
  refine fun b s k => ⟨fun hb => ?_, fun hb => withReg_illegal hb s k⟩
  obtain ⟨r, -, hr⟩ := regIdx_legal hb
  exact ⟨r, hr.symm, withReg_legal hr s k⟩

/-- Settles O31: the first and the second register operand are checked in order, in every instruction. -/
theorem registerByteAboveSevenFaults : Obligations.RegisterByteAboveSevenFaults := by
  have hone : ∀ mk ∈ [Instr.prn, .push, .pop, .call, .jmp, .jeq, .jne], ∀ b, (mk b).regOperands = [b] := by
    simp [Instr.regOperands]
  have htwo : ∀ mk ∈ [Instr.add, .mul, .cmp, .and, .or, .xor], ∀ a b, (mk a b).regOperands = [a, b] := by
    simp [Instr.regOperands]
  refine ⟨fun mk hmk s b hb => ?_, fun s b imm hb => ?_, fun mk hmk s a b => ⟨fun ha => ?_, fun ha hb => ?_⟩⟩
  · exact (Raises.firstReg (hone mk hmk b) hb).exec
  · exact (Raises.firstReg rfl hb).exec
  · exact (Raises.firstReg (htwo mk hmk a b) ha).exec
  · exact (Raises.secondReg (htwo mk hmk a b) ha hb).exec

/-- Settles O32: a push below address zero, by PUSH and by CALL. -/
theorem pushBelowAddressZeroFaults : Obligations.PushBelowAddressZeroFaults :=
  fun _ _ hb hsp => ⟨(Raises.pushLow hb hsp).exec, fun hpc => (Raises.callLow hb hpc hsp).exec⟩

/-- Settles O33: the pointer that RET and POP increment is the stack pointer, or for POP r7 the byte loaded. -/
theorem popPastTheTopOfMemoryFaults : Obligations.PopPastTheTopOfMemoryFaults := by
  refine fun s => ⟨fun hsp => ⟨(Raises.retHigh hsp).exec, fun b hb => ?_⟩, fun hbyte => ?_⟩
  · obtain ⟨r, hr, hbr⟩ := regIdx_legal (b := b) (by omega)
    have hne : r ≠ 7 := fun h => by
      subst h
      exact absurd hbr (Nat.ne_of_lt hb)
    exact (Raises.popHigh hr ((popPointer_ne hne s).trans hsp)).exec
  · exact (Raises.popHigh (regIdx_of_toNat (b := 7) (r := 7) rfl) hbyte).exec

/-- Settles O34: at 254 the return address is 256, checked before the stack pointer. -/
theorem callAt254Faults : Obligations.CallAt254Faults := by
  intro s b hb hpc
  have hexec := (Raises.returnAddress (s := s) hb (by rw [hpc]; decide)).exec
  rw [hpc] at hexec
  exact hexec

end Sys2Proof.Machine
end

section
/-!
PROOF. What every effect keeps and where it leaves PC (spec/10_state.md R15, R19, R25, spec/20_memory.md R32): one lemma
per element of the state, by cases on the effect.
-/

namespace Sys2Proof.Machine

@[simp] theorem State.putAlu_pc (s : State) (x : RegIx) (o : AluOut) : (s.putAlu x o).pc = s.pc := by cases o <;> rfl
@[simp] theorem State.putAlu_ir (s : State) (x : RegIx) (o : AluOut) : (s.putAlu x o).ir = s.ir := by cases o <;> rfl
@[simp] theorem State.putAlu_run (s : State) (x : RegIx) (o : AluOut) : (s.putAlu x o).run = s.run := by cases o <;> rfl
@[simp] theorem State.putAlu_mem (s : State) (x : RegIx) (o : AluOut) : (s.putAlu x o).mem = s.mem := by cases o <;> rfl
@[simp] theorem State.putAlu_out (s : State) (x : RegIx) (o : AluOut) : (s.putAlu x o).out = s.out := by cases o <;> rfl

section
variable {s t : State} {i : Instr}

theorem Effect.ir (h : Effect s i t) : t.ir = s.ir := by
  cases h with
  | alu => rw [State.advance_ir, State.putAlu_ir]
  | _ => rfl

theorem Effect.fault (h : Effect s i t) : t.fault = s.fault := by
  cases h with
  | alu => rw [State.advance_fault, State.putAlu_fault]
  | _ => rfl

/-- RUN is written by HLT alone (R70). -/
theorem Effect.run (h : Effect s i t) : t.run = if i.op = .hlt then .halted else s.run := by
  cases h with
  | alu k => rw [State.advance_run, State.putAlu_run, if_neg (by cases k <;> exact nofun)]
  | _ => rfl

theorem expectedPc_jeq {b : Byte} {r : RegIx} (hr : regIdx b = some r) :
    expectedPc s (.jeq b) = if flagE s.fl then zext9 (s.reg r) else s.pc + 2 := by
  rw [expectedPc, hr]
  rfl

theorem expectedPc_jne {b : Byte} {r : RegIx} (hr : regIdx b = some r) :
    expectedPc s (.jne b) = if flagE s.fl then s.pc + 2 else zext9 (s.reg r) := by
  rw [expectedPc, hr]
  rfl

/-- PC is the value that the table of R19 gives. -/
theorem Effect.pc (h : Effect s i t) : t.pc = expectedPc s i := by
  cases h with
  | alu k => rw [State.advance_pc, State.putAlu_pc]; cases k <;> rfl
  | call hr | jmp hr => simp [expectedPc, hr]
  | jeqTaken hr he | jeqPassed hr he => simp [expectedPc_jeq hr, he]
  | jneTaken hr he | jnePassed hr he => simp [expectedPc_jne hr, he]
  | _ => rfl

/-- The instructions that leave PC behind themselves (R66): those without SPC, and a conditional jump not taken. -/
def passesOn (s : State) (i : Instr) : Prop :=
  i.op.setsPc = false ∨ (i.op = .jeq ∧ flagE s.fl = false) ∨ (i.op = .jne ∧ flagE s.fl = true)

/-- PC moves past the instruction, or an instruction with SPC puts a byte into it. -/
theorem Effect.pc_cases (h : Effect s i t) :
    (passesOn s i ∧ t.pc = s.pc + BitVec.ofNat 9 i.length) ∨ (i.op.setsPc = true ∧ ∃ b, t.pc = zext9 b) := by
  cases h with
  | hlt | ldi | prn | push | pop => exact .inl ⟨.inl rfl, rfl⟩
  | alu k =>
    refine .inl ⟨.inl (k.setsPc_op_instr _ _), ?_⟩
    rw [State.advance_pc, State.putAlu_pc, Instr.length, k.operands_instr]
    rfl
  | call | ret | jmp | jeqTaken | jneTaken => exact .inr ⟨rfl, _, rfl⟩
  | jeqPassed hr he => exact .inl ⟨.inr (.inl ⟨rfl, he⟩), rfl⟩
  | jnePassed hr he => exact .inl ⟨.inr (.inr ⟨rfl, he⟩), rfl⟩

theorem Effect.out_cases (h : Effect s i t) :
    t.out = s.out ∨ ∃ b r, i = .prn b ∧ regIdx b = some r ∧ t.out = s.out ++ [s.reg r] := by
  cases h with
  | prn hr => exact .inr ⟨_, _, rfl, hr, rfl⟩
  | alu => exact .inl (by rw [State.advance_out, State.putAlu_out])
  | _ => exact .inl rfl

/-- Memory is kept, or PUSH or CALL stores one byte at the address of the push. -/
theorem Effect.mem_cases (h : Effect s i t) :
    t.mem = s.mem ∨ i.op ∈ [Op.push, .call] ∧ ∃ a v, s.pushAddr = some a ∧ t.mem = s.mem.write a.toNat v := by
  cases h with
  | push hr hsp => exact .inr ⟨by simp [Instr.op], _, _, State.pushAddr_pos hsp, rfl⟩
  | call hr hpc hsp => exact .inr ⟨by simp [Instr.op], _, _, State.pushAddr_pos hsp, rfl⟩
  | alu => exact .inl (by rw [State.advance_mem, State.putAlu_mem])
  | _ => exact .inl rfl

theorem sameRegsBut_toList_setReg {b : Byte} {r : RegIx} (hr : regIdx b = some r) (v : Byte) :
    sameRegsBut (regIdx b).toList s (s.setReg r v) := by
  rw [hr]
  exact (onlyRegs_setReg s r v).1

/-- The registers outside the table of R15 are kept. -/
theorem Effect.regs (h : Effect s i t) : sameRegsBut (writtenRegs i) s t := by
  cases h with
  | ldi hr => exact sameRegsBut_toList_setReg hr _
  | alu k hx hy =>
    cases k with
    | cmp => exact fun _ _ => rfl
    | add | mul | and | or | xor => exact sameRegsBut_toList_setReg hx _
  | pop hr =>
    intro j hj
    rw [writtenRegs, List.mem_cons, not_or] at hj
    rw [State.advance_reg, State.setSp_reg, if_neg hj.1]
    exact sameRegsBut_toList_setReg hr _ j hj.2
  | push | call | ret => exact (onlyRegs_setSp s _).1
  | hlt | prn | jmp | jeqTaken | jeqPassed | jneTaken | jnePassed => exact fun _ _ => rfl

end

/-! ### The same of `exec`: raising a fault writes RUN and FAULT only -/

/-- Settles O18: an instruction without a fault took effect, one with a fault kept PC. -/
theorem pcAfterEachInstruction : Obligations.PcAfterEachInstruction := by
  intro i s t hs ht
  rcases effect_or_raises_of_exec ht with h | ⟨k, info, -, rfl⟩
  · exact ⟨fun _ => h.pc, fun hne => absurd (h.fault.trans hs) hne⟩
  · exact ⟨nofun, fun _ => s.raise_pc k info⟩

/-- Settles O40: PRN's effect alone writes OUT. -/
theorem onlyPrnWritesOutput : Obligations.OnlyPrnWritesOutput := by
  intro i s t ht
  rcases effect_or_raises_of_exec ht with h | ⟨k, info, -, rfl⟩
  · exact h.out_cases
  · exact .inl (s.raise_out k info)

theorem sameMem_of_mem_eq {s t : State} (h : t.mem = s.mem) : sameMem s t := fun a => congrArg (Memory.read · a) h

/-- Settles O41: memory is kept or written once, at the push address. -/
theorem onlyPushAndCallWriteMemory : Obligations.OnlyPushAndCallWriteMemory := by
  intro i s t ht
  have hkept : t.mem = s.mem → (i.op ∉ [Op.push, .call] → sameMem s t) ∧ (s.pushAddr = none → sameMem s t) ∧
      ∀ a, s.pushAddr = some a → sameMemBut a s t := fun h =>
    have hsame := sameMem_of_mem_eq h
    ⟨fun _ => hsame, fun _ => hsame, fun _ _ b _ => hsame b⟩
  rcases effect_or_raises_of_exec ht with h | ⟨k, info, -, rfl⟩
  · rcases h.mem_cases with h | ⟨hop, a, v, ha, hw⟩
    · exact hkept h
    · refine ⟨fun hn => absurd hop hn, fun hn => absurd (hn.symm.trans ha) nofun, fun a' ha' b hb => ?_⟩
      cases ha.symm.trans ha'
      rw [hw, Memory.read_write_ne s.mem v hb]
  · exact hkept (s.raise_mem k info)

/-- Settles O42: each effect writes the registers of its row. -/
theorem registersWrittenByEachInstruction : Obligations.RegistersWrittenByEachInstruction := by
  intro i s t ht
  rcases effect_or_raises_of_exec ht with h | ⟨k, info, -, rfl⟩
  · exact h.regs
  · exact fun j _ => s.raise_reg k info j

end Sys2Proof.Machine
end

section
/-!
PROOF. Fetch, decode and operand fetch (spec/40_step_cycle.md R62 to R64) as two relations on memory at PC: `Stands` where
an instruction is fetched, `FetchRaises` where the dispatcher raises a fault.
-/

namespace Sys2Proof.Machine

/-- The bytes of `i` are in memory from PC on. -/
structure Stands (s : State) (i : Instr) : Prop where
  inMemory : s.pc.toNat + i.length ≤ 256
  byteAt : ∀ k, k < i.length → s.mem.read (s.pc.toNat + k) = (encode i).getD k 0x00

/-- The faults of the dispatcher, with the conditions of R107 and R108. -/
inductive FetchRaises (s : State) : FaultKind → Word9 → Prop
  /-- R108, the opcode byte. -/
  | opcode (hpc : 256 ≤ s.pc.toNat) : FetchRaises s .boundsFetch s.pc
  /-- R107. -/
  | unsupported (hpc : s.pc.toNat ≤ 255) (hb : ∀ o : Op, opcodeTable o ≠ s.mem.read s.pc.toNat) :
      FetchRaises s .unsupportedInstruction (zext9 (s.mem.read s.pc.toNat))
  /-- R108, an operand byte. -/
  | operand {o : Op} (hpc : s.pc.toNat ≤ 255) (ho : s.mem.read s.pc.toNat = opcodeTable o)
      (hend : 255 < s.pc.toNat + o.operandCount) : FetchRaises s .boundsFetch 256

/-! ### The fetch window and the bytes of an instruction -/

/-- The window shows memory, and only addresses that exist. -/
theorem Memory.getD_bytesFrom (m : Memory) {a n k : Nat} (hk : k < (m.bytesFrom a n).length) :
    a + k < 256 ∧ (m.bytesFrom a n).getD k 0x00 = m.read (a + k) := by
  induction n generalizing a k with
  | zero => exact absurd hk (Nat.not_lt_zero k)
  | succ n ih =>
    rcases Nat.lt_or_ge a 256 with ha | ha
    · rw [Memory.bytesFrom_succ m n ha] at hk ⊢
      cases k with
      | zero => exact ⟨ha, rfl⟩
      | succ k =>
        obtain ⟨hlt, hget⟩ := ih (Nat.lt_of_succ_lt_succ hk)
        rw [List.getD_cons_succ, hget, show a + (k + 1) = a + 1 + k by omega]
        exact ⟨hlt, rfl⟩
    · rw [Memory.bytesFrom_ge m _ ha] at hk
      exact absurd hk (Nat.not_lt_zero k)

/-- Bytes that stand in memory are the beginning of a window that is long enough. -/
theorem Memory.bytesFrom_eq_append (m : Memory) {a n : Nat} {l : List Byte} (ha : a + l.length ≤ 256)
    (hn : l.length ≤ n) (hl : ∀ k, k < l.length → m.read (a + k) = l.getD k 0x00) :
    ∃ rest, m.bytesFrom a n = l ++ rest := by
  induction l generalizing a n with
  | nil => exact ⟨_, rfl⟩
  | cons b l ih =>
    rw [List.length_cons] at ha hn hl
    obtain ⟨n, rfl⟩ := Nat.exists_eq_add_of_lt hn
    have htail : ∀ k, k < l.length → m.read (a + 1 + k) = l.getD k 0x00 := fun k hk => by
      rw [show a + 1 + k = a + (k + 1) by omega, hl (k + 1) (by omega), List.getD_cons_succ]
    obtain ⟨rest, hrest⟩ := ih (a := a + 1) (n := l.length + n) (by omega) (by omega) htail
    have hhead : m.read a = b := hl 0 (by omega)
    exact ⟨rest, by rw [Memory.bytesFrom_succ m _ (by omega), hrest, hhead, List.cons_append]⟩

theorem Stands.exists_decode {s : State} {i : Instr} (h : Stands s i) : ∃ rest, decode s.codeBytes = .ok i rest := by
  have hlen : i.length ≤ 3 := by
    have := i.op.operandCount_le_two
    rw [Instr.length_eq]
    omega
  obtain ⟨rest, hrest⟩ := s.mem.bytesFrom_eq_append (a := s.pc.toNat) (l := encode i) (n := 3)
    (by rw [encode_length]; exact h.inMemory) (by rwa [encode_length]) (by rw [encode_length]; exact h.byteAt)
  exact ⟨rest, by rw [State.codeBytes, hrest, decode_encode]⟩

theorem stands_of_decode {s : State} {i : Instr} {rest : List Byte} (h : decode s.codeBytes = .ok i rest) :
    Stands s i := by
  have hbytes : s.mem.bytesFrom s.pc.toNat 3 = encode i ++ rest := eq_encodeWith_of_decodeWith_ok h
  have hlen : (s.mem.bytesFrom s.pc.toNat 3).length = i.length + rest.length := by
    rw [hbytes, List.length_append, encode_length]
  have hpos : i.length = 1 + i.op.operandCount := i.length_eq
  refine ⟨?_, fun k hk => ?_⟩
  · obtain ⟨hlt, -⟩ := s.mem.getD_bytesFrom (a := s.pc.toNat) (n := 3) (k := i.length - 1) (by omega)
    omega
  · obtain ⟨-, hget⟩ := s.mem.getD_bytesFrom (a := s.pc.toNat) (n := 3) (k := k) (by omega)
    rw [← hget, hbytes, List.getD_append _ _ _ _ (by rwa [encode_length])]

theorem Stands.pc_le {s : State} {i : Instr} (h : Stands s i) : s.pc.toNat ≤ 255 := by
  have := h.inMemory
  have := i.length_eq
  omega

/-- At PC stands the opcode byte. -/
theorem Stands.opcode {s : State} {i : Instr} (h : Stands s i) : s.mem.read s.pc.toNat = opcodeTable i.op :=
  h.byteAt 0 (by rw [Instr.length_eq]; omega)

/-- The last address at which CALL fits in memory, where its return address is no address (R112). -/
theorem Stands.pc_eq_254 {s : State} {b : Byte} (h : Stands s (.call b)) (hlt : 253 < s.pc.toNat) : s.pc = 254 :=
  BitVec.eq_of_toNat_eq (Nat.le_antisymm (Nat.le_of_add_le_add_right h.inMemory) hlt)

/-! ### Fetch is exactly the two -/

/-- `IR <- Mem[PC]` in one equation (R62; spec decision D25). -/
theorem State.loadIr_eq (s : State) :
    s.loadIr = { s with ir := if s.pc.toNat ≤ 255 then s.mem.read s.pc.toNat else s.ir } := by
  by_cases h : s.pc.toNat ≤ 255
  · rw [s.loadIr_lt (by omega), if_pos h]
  · rw [s.loadIr_ge (by omega), if_neg h]

theorem Stands.loadIr {s : State} {i : Instr} (h : Stands s i) : s.loadIr = { s with ir := opcodeTable i.op } := by
  rw [State.loadIr_eq, if_pos h.pc_le, h.opcode]

theorem Stands.fetch {s : State} {i : Instr} (h : Stands s i) : fetch s = .run i s.loadIr := by
  obtain ⟨rest, hd⟩ := h.exists_decode
  simp only [Machine.fetch, hd]

theorem State.codeBytes_le {s : State} (hpc : s.pc.toNat ≤ 255) :
    s.codeBytes = s.mem.read s.pc.toNat :: s.mem.bytesFrom (s.pc.toNat + 1) 2 :=
  s.mem.bytesFrom_succ 2 (Nat.lt_succ_of_le hpc)

theorem FetchRaises.fetch {s : State} {k : FaultKind} {info : Word9} (h : FetchRaises s k info) :
    fetch s = .raised (s.loadIr.raise k info) := by
  cases h with
  | opcode hpc =>
    have hd : decode s.codeBytes = .noOpcode := by rw [State.codeBytes, Memory.bytesFrom_ge _ _ hpc]; rfl
    simp only [Machine.fetch, hd]
  | unsupported hpc hb =>
    have hd : decode s.codeBytes = .unsupported (s.mem.read s.pc.toNat) := by
      rw [State.codeBytes_le hpc]
      exact (decode_cons_eq_unsupported_iff _ _).2 hb
    simp only [Machine.fetch, hd]
  | operand hpc ho hend =>
    rw [s.loadIr_lt (Nat.lt_succ_of_le hpc)]
    rcases fetch_cases s with ⟨hp, -⟩ | ⟨-, ⟨hl, -⟩ | ⟨o', hl, ⟨-, hf⟩ | ⟨hin, -⟩⟩⟩
    · omega
    · rw [ho, lookupOp_opcodeTable] at hl
      cases hl
    · exact hf
    · rw [ho, lookupOp_opcodeTable] at hl
      cases hl
      omega

/-- At every PC an instruction is fetched or the dispatcher raises a fault. -/
theorem fetchRaises_or_stands (s : State) : (∃ k info, FetchRaises s k info) ∨ ∃ i, Stands s i := by
  rcases fetch_cases s with ⟨hp, -⟩ | ⟨hp, ⟨hl, -⟩ | ⟨o, hl, ⟨hend, -⟩ | ⟨-, i, rest, hd, -⟩⟩⟩
  · exact .inl ⟨_, _, .opcode hp⟩
  · exact .inl ⟨_, _, .unsupported hp (lookupOp_none hl)⟩
  · exact .inl ⟨_, _, .operand hp (lookupOp_some hl).symm hend⟩
  · exact .inr ⟨i, stands_of_decode hd⟩

/-! ### The step -/

theorem Stands.step {s : State} {i : Instr} (h : Stands s i) (hrun : s.run = .running) : step s = exec i s.loadIr :=
  step_run hrun h.fetch

theorem FetchRaises.step {s : State} {k : FaultKind} {info : Word9} (h : FetchRaises s k info)
    (hrun : s.run = .running) : step s = .next (s.loadIr.raise k info) := step_raised hrun h.fetch

/-- Everything a step that answers can have been: the dispatcher raised a fault, or the instruction at PC raised one or
took effect, with the opcode byte in IR. -/
theorem step_cases {s t : State} (ht : step s = .next t) : s.run = .running ∧
    ((∃ k info, FetchRaises s k info ∧ t = s.loadIr.raise k info) ∨
      ∃ i, Stands s i ∧ (Effect s.loadIr i t ∨ ∃ k info, Raises s.loadIr i k info ∧ t = s.loadIr.raise k info)) := by
  obtain ⟨hrun, -⟩ := step_next_cases ht
  refine ⟨hrun, ?_⟩
  rcases fetchRaises_or_stands s with ⟨k, info, hf⟩ | ⟨i, hi⟩
  · exact .inl ⟨k, info, hf, Host.Outcome.next.inj (ht.symm.trans (hf.step hrun))⟩
  · exact .inr ⟨i, hi, effect_or_raises_of_exec ((hi.step hrun).symm.trans ht)⟩

end Sys2Proof.Machine
end

section
/-!
PROOF. The statements about one step (spec/40_step_cycle.md R61 to R69), from `step_cases`: the dispatcher raises a fault,
or the instruction that stands at PC raises one or takes effect.
-/

namespace Sys2Proof.Machine

section
variable (s : State)

@[simp] theorem State.loadIr_regs : s.loadIr.regs = s.regs := by rw [State.loadIr_eq]
@[simp] theorem State.loadIr_pc : s.loadIr.pc = s.pc := by rw [State.loadIr_eq]
@[simp] theorem State.loadIr_fl : s.loadIr.fl = s.fl := by rw [State.loadIr_eq]
@[simp] theorem State.loadIr_run : s.loadIr.run = s.run := by rw [State.loadIr_eq]
@[simp] theorem State.loadIr_fault : s.loadIr.fault = s.fault := by rw [State.loadIr_eq]
@[simp] theorem State.loadIr_mem : s.loadIr.mem = s.mem := by rw [State.loadIr_eq]
@[simp] theorem State.loadIr_out : s.loadIr.out = s.out := by rw [State.loadIr_eq]
@[simp] theorem State.loadIr_reg (j : RegIx) : s.loadIr.reg j = s.reg j := congrArg (RegFile.get · j) s.loadIr_regs

end

/-! ### Fetch and execution -/

/-- Settles O12: bytes that decode to an instruction are that instruction at PC. -/
theorem stepExecutesTheDecodedInstruction : Obligations.StepExecutesTheDecodedInstruction := by
  intro s i rest hrun hd
  have hi := stands_of_decode hd
  rw [hi.step hrun, s.loadIr_lt (Nat.lt_succ_of_le hi.pc_le)]

/-- Settles O13: bytes in memory are fetched whole, and no byte after them counts. -/
theorem stepExecutesTheInstructionInMemory : Obligations.StepExecutesTheInstructionInMemory := by
  intro s i hrun hin hbytes
  have hi : Stands s i := ⟨hin, hbytes⟩
  rw [hi.step hrun, hi.loadIr]

theorem step_at_256 {s : State} (hrun : s.run = .running) (hpc : s.pc = 256) :
    step s = .next (faultedFrom s .boundsFetch 256) := by
  have hge : 256 ≤ s.pc.toNat := by rw [hpc]; decide
  rw [(FetchRaises.opcode hge).step hrun, s.loadIr_ge hge, hpc, State.raise_eq]

/-- Whatever a step comes to, IR is the byte that was fetched (R62; spec decision D25). -/
theorem step_ir {s t : State} (ht : step s = .next t) (hpc : s.pc.toNat ≤ 255) : t.ir = s.mem.read s.pc.toNat := by
  have hir : s.loadIr.ir = s.mem.read s.pc.toNat := by rw [s.loadIr_lt (Nat.lt_succ_of_le hpc)]
  obtain ⟨-, ⟨k, info, -, rfl⟩ | ⟨i, -, h | ⟨k, info, -, rfl⟩⟩⟩ := step_cases ht
  · exact hir
  · exact h.ir.trans hir
  · exact hir

/-- Settles O14: the two branches of the opcode fetch. -/
theorem fetchLoadsIrOrFaultsAt256 : Obligations.FetchLoadsIrOrFaultsAt256 := by
  refine fun s hrun => ⟨step_at_256 hrun, fun hpc => ?_⟩
  obtain ⟨t, ht⟩ := step_next_of_running hrun
  exact ⟨t, ht, step_ir ht hpc⟩

/-- Settles O15: the dispatcher's fault for a byte outside the table. -/
theorem unsupportedByteFaults : Obligations.UnsupportedByteFaults := by
  refine ⟨fun s hrun hpc hb => ?_, fun o => ⟨opcodeTable_ne_allOnes o, lookupOp_none (by decide) o⟩⟩
  rw [(FetchRaises.unsupported hpc hb).step hrun, s.loadIr_lt (Nat.lt_succ_of_le hpc), State.raise_eq]

/-! ### PC -/

/-- Within memory the advance does not wrap: nine bits hold 256 (R18; spec decision D2). -/
theorem Stands.pc_add_length_toNat {s : State} {i : Instr} (h : Stands s i) :
    (s.pc + BitVec.ofNat 9 i.length).toNat = s.pc.toNat + i.length := by
  have hin := h.inMemory
  rw [BitVec.toNat_add, BitVec.toNat_ofNat]
  omega

theorem zext9_ne_256 (b : Byte) : zext9 b ≠ 256 := by
  intro h
  have hb := zext9_toNat b
  rw [h] at hb
  exact absurd hb (Nat.ne_of_gt b.isLt)

/-- An effect leaves PC at 256 only by passing on from an instruction whose last byte is at 255. -/
theorem Effect.passesOn_of_pc_eq_256 {s t : State} {i : Instr} (hi : Stands s i) (h : Effect s.loadIr i t)
    (ht : t.pc = 256) : passesOn s i ∧ s.pc.toNat + i.length = 256 := by
  rcases h.pc_cases with ⟨hpass, hpc⟩ | ⟨-, b, hb⟩
  · rw [State.loadIr_pc] at hpc
    rw [passesOn, State.loadIr_fl] at hpass
    exact ⟨hpass, by rw [← hi.pc_add_length_toNat, ← hpc, ht]; rfl⟩
  · exact absurd (hb.symm.trans ht) (zext9_ne_256 b)

/-- Settles O16: the dispatcher's two fetch faults, and the one way of an effect to PC = 256. -/
theorem fetchPastMemoryFaults : Obligations.FetchPastMemoryFaults := by
  refine fun s hrun => ⟨step_at_256 hrun, fun i hpc hop hend => ?_, fun t hpc ht ht256 => ?_⟩
  · rw [Instr.operands_length] at hend
    have hcount := i.op.operandCount_le_two
    refine ⟨?_, ?_⟩
    · rw [(FetchRaises.operand hpc hop hend).step hrun, s.loadIr_lt (Nat.lt_succ_of_le hpc), hop, State.raise_eq]
    · have hcases : s.pc.toNat = 254 ∨ s.pc.toNat = 255 := by omega
      exact hcases.imp BitVec.eq_of_toNat_eq BitVec.eq_of_toNat_eq
  · have hkept : ∀ k info, t ≠ s.loadIr.raise k info := by
      rintro k info rfl
      rw [State.raise_pc, State.loadIr_pc] at ht256
      rw [ht256] at hpc
      exact absurd hpc (by decide)
    obtain ⟨-, ⟨k, info, -, hk⟩ | ⟨i, hi, h | ⟨k, info, -, hk⟩⟩⟩ := step_cases ht
    · exact absurd hk (hkept k info)
    · obtain ⟨rest, hd⟩ := hi.exists_decode
      obtain ⟨hpass, hlen⟩ := h.passesOn_of_pc_eq_256 hi ht256
      exact ⟨i, rest, hd, hlen, hpass⟩
    · exact absurd hk (hkept k info)

/-- A step between states without a fault is the effect of the instruction at PC. -/
theorem effect_of_step_no_fault {s t : State} (ht : step s = .next t) (hfault : t.fault = none) :
    ∃ i, Stands s i ∧ Effect s.loadIr i t := by
  obtain ⟨-, ⟨k, info, -, rfl⟩ | ⟨i, hi, h | ⟨k, info, -, rfl⟩⟩⟩ := step_cases ht
  · cases hfault
  · exact ⟨i, hi, h⟩
  · cases hfault

/-- The table of R19 does not look at IR. -/
theorem expectedPc_loadIr (s : State) (i : Instr) : expectedPc s.loadIr i = expectedPc s i := by
  cases i <;> simp only [expectedPc, State.loadIr_pc, State.loadIr_reg, State.loadIr_fl, State.loadIr_mem]

/-- Settles O17: bit 4 of IR is the row's SPC and bits 7:6 count its operand bytes, so without SPC the effect's PC is past
the instruction. -/
theorem dispatcherAdvancesPcUnlessSpc : Obligations.DispatcherAdvancesPcUnlessSpc := by
  intro s t _ ht hfault
  obtain ⟨i, hi, h⟩ := effect_of_step_no_fault ht hfault
  have hir : t.ir = opcodeTable i.op := (step_ir ht hi.pc_le).trans hi.opcode
  rw [hir, spcField_opcodeTable, nopsField_opcodeTable]
  refine ⟨fun hspc => ?_, fun hspc => ?_⟩
  · rcases h.pc_cases with ⟨-, hpc⟩ | ⟨htrue, -⟩
    · have hin := hi.inMemory
      rw [State.loadIr_pc] at hpc
      rw [hpc, hi.pc_add_length_toNat]
      rw [i.length_eq] at hin ⊢
      omega
    · rw [hspc] at htrue
      cases htrue
  · obtain ⟨rest, hd⟩ := hi.exists_decode
    refine ⟨i, rest, hd, hspc, ?_, h.pc.trans (expectedPc_loadIr s i)⟩
    rw [← hi.loadIr]
    exact h.exec

/-! ### Faults -/

/-- Settles O35: every fault of a step is raised in the state with IR loaded. -/
theorem faultsArePrecise : Obligations.FaultsArePrecise := by
  intro s t hs ht hne
  rw [← State.loadIr_eq]
  obtain ⟨-, ⟨k, info, -, rfl⟩ | ⟨i, -, h | ⟨k, info, -, rfl⟩⟩⟩ := step_cases ht
  · exact ⟨k, info, rfl⟩
  · exact absurd (h.fault.trans (s.loadIr_fault.trans hs)) hne
  · exact ⟨k, info, rfl⟩

/-! ### How a run ends -/

theorem Instr.op_eq_hlt_iff (i : Instr) : i.op = .hlt ↔ i = .hlt := by
  cases i with
  | hlt => exact iff_of_true rfl rfl
  | _ => exact iff_of_false nofun nofun

/-- HLT has no operand that could raise a fault. -/
theorem not_raises_hlt {s : State} {k : FaultKind} {info : Word9} : ¬ Raises s .hlt k info := by
  intro h
  cases h with
  | firstReg hi | secondReg hi => cases hi

/-- The dispatcher raises no fault where HLT is at PC: its byte is in the table and it has no operand bytes. -/
theorem FetchRaises.not_hlt {s : State} {k : FaultKind} {info : Word9} (h : FetchRaises s k info) :
    ¬ (s.pc.toNat ≤ 255 ∧ s.mem.read s.pc.toNat = opcodeTable .hlt) := by
  rintro ⟨hpc, hb⟩
  cases h with
  | opcode hge => omega
  | unsupported _ hne => exact hne .hlt hb.symm
  | operand _ ho hend =>
    cases tableDistinct_opcodeTable _ _ (ho.symm.trans hb)
    exact absurd hend (Nat.not_lt.2 hpc)

theorem Stands.op_eq_hlt_iff {s : State} {i : Instr} (hi : Stands s i) :
    i.op = .hlt ↔ s.pc.toNat ≤ 255 ∧ s.mem.read s.pc.toNat = opcodeTable .hlt := by
  rw [hi.opcode]
  exact ⟨fun h => ⟨hi.pc_le, by rw [h]⟩, fun ⟨_, h⟩ => tableDistinct_opcodeTable _ _ h⟩

/-- FAULT tells the endings apart, in a core where only a halted state has a fault (R69). -/
theorem endings_of_fault_halted {t : State} (h : t.fault ≠ none → t.run = .halted) :
    (t.isFaulted ↔ t.fault ≠ none) ∧ (t.run = .running ↔ ¬ t.isFinal ∧ ¬ t.isFaulted) := by
  refine ⟨⟨fun hf => hf.2, fun hne => ⟨h hne, hne⟩⟩, ?_⟩
  unfold State.isFinal State.isFaulted
  cases hr : t.run with
  | running => simp
  | halted =>
    simp only [reduceCtorEq, true_and, false_iff, not_and, not_not]
    exact fun hne => hne

/-- A raised fault ends the run, and not as HLT does. -/
theorem raise_endings (s : State) (k : FaultKind) (info : Word9) :
    ¬ (s.raise k info).isFinal ∧ ((s.raise k info).fault ≠ none → (s.raise k info).run = .halted) :=
  ⟨fun ⟨_, hnone⟩ => (nomatch hnone), fun _ => s.raise_run k info⟩

/-- Settles O43: the effect of HLT alone halts without a fault; every fault halts. -/
theorem haltsOnlyByHltOrFault : Obligations.HaltsOnlyByHltOrFault := by
  intro s t hs ht
  obtain ⟨hrun, ⟨k, info, hf, rfl⟩ | ⟨i, hi, h | ⟨k, info, hk, rfl⟩⟩⟩ := step_cases ht
  · obtain ⟨hfinal, hhalt⟩ := raise_endings s.loadIr k info
    exact ⟨iff_of_false hfinal hf.not_hlt, endings_of_fault_halted hhalt⟩
  · have hfault : t.fault = none := h.fault.trans (s.loadIr_fault.trans hs)
    refine ⟨?_, endings_of_fault_halted fun hne => absurd hfault hne⟩
    rw [← hi.op_eq_hlt_iff, State.isFinal, h.run, State.loadIr_run, hrun]
    simp [hfault]
  · obtain ⟨hfinal, hhalt⟩ := raise_endings s.loadIr k info
    refine ⟨iff_of_false hfinal fun hhlt => ?_, endings_of_fault_halted hhalt⟩
    obtain rfl := (Instr.op_eq_hlt_iff i).1 (hi.op_eq_hlt_iff.2 hhlt)
    exact not_raises_hlt hk

/-- Settles O49: the two ways of a fetch do not look at IR, and writing IR forgets it. -/
theorem oldIrIsInvisible : Obligations.OldIrIsInvisible := by
  intro s x hpc
  have hload : State.loadIr { s with ir := x } = s.loadIr := by
    rw [s.loadIr_lt (Nat.lt_succ_of_le hpc)]
    exact State.loadIr_lt _ (Nat.lt_succ_of_le hpc)
  have hfetch : fetch { s with ir := x } = fetch s := by
    simp only [fetch, hload]
    rfl
  simp only [step, hfetch]

end Sys2Proof.Machine
end

section
/-!
PROOF. The invariant of the core (spec/10_state.md R18, R21, spec/60_exceptions.md R106): reset has it and every step keeps
it, so every reachable state has it. The cases are those of `step_cases`: an effect keeps the parts of the state legal, and
a fault, of the dispatcher or of an instruction, records what the table of faults allows.
-/

namespace Sys2Proof.Machine

/-! ### The parts of the state that an effect writes -/

section
variable {s t : State} {i : Instr}

theorem Effect.mem_wf (h : Effect s i t) (hwf : s.mem.wf = true) : t.mem.wf = true := by
  rcases h.mem_cases with hm | ⟨-, a, v, -, hm⟩
  · rwa [hm]
  · rw [hm]
    exact Memory.wf_write hwf v a.isLt

theorem compareFlags_legal (va vb : Byte) : legalFl (compareFlags va vb) := by
  unfold compareFlags
  split
  · exact .inr (.inl rfl)
  · split
    · exact .inr (.inr (.inl rfl))
    · exact .inr (.inr (.inr rfl))

/-- FL is kept or is what CMP made it. -/
theorem Effect.fl_legal (h : Effect s i t) (hfl : legalFl s.fl) : legalFl t.fl := by
  cases h with
  | alu k =>
    cases k with
    | cmp => exact compareFlags_legal _ _
    | add | mul | and | or | xor => exact hfl
  | _ => exact hfl

/-- PC is past the instruction, which ends in memory, or a byte. -/
theorem Effect.pc_le (hi : Stands s i) (h : Effect s.loadIr i t) : t.pc.toNat ≤ 256 := by
  rcases h.pc_cases with ⟨-, hpc⟩ | ⟨-, b, hb⟩
  · rw [State.loadIr_pc] at hpc
    rw [hpc, hi.pc_add_length_toNat]
    exact hi.inMemory
  · rw [hb, zext9_toNat]
    exact b.isLt.le

theorem Effect.inv (hs : Inv s) (hfault : s.fault = none) (hi : Stands s i) (h : Effect s.loadIr i t) : Inv t := by
  have hnone : t.fault = none := by rw [h.fault, State.loadIr_fault, hfault]
  exact {
    memWf := h.mem_wf (by rw [State.loadIr_mem]; exact hs.memWf)
    pcRange := h.pc_le hi
    flLegal := h.fl_legal (by rw [State.loadIr_fl]; exact hs.flLegal)
    faultHalted := fun hne => absurd hnone hne
    faultLegal := fun f hf => nomatch hnone.symm.trans hf }

end

/-! ### The records of the faults -/

/-- Raising a fault at PC keeps a state legal exactly where the record is legal. -/
theorem raise_inv {s : State} (hs : Inv s) {k : FaultKind} {info : Word9}
    (hlegal : FaultRecord.legal ⟨k, s.pc, info⟩) : Inv (s.loadIr.raise k info) where
  memWf := by rw [State.raise_mem, State.loadIr_mem]; exact hs.memWf
  pcRange := by rw [State.raise_pc, State.loadIr_pc]; exact hs.pcRange
  flLegal := by rw [State.raise_fl, State.loadIr_fl]; exact hs.flLegal
  faultHalted := fun _ => rfl
  faultLegal := fun f hf => by
    rw [State.raise_fault, State.loadIr_pc] at hf
    cases hf
    exact ⟨hlegal, s.loadIr_pc.symm⟩

theorem zext9_injective {a b : Byte} (h : zext9 a = zext9 b) : a = b :=
  BitVec.eq_of_toNat_eq (by rw [← zext9_toNat a, h, zext9_toNat])

/-- The dispatcher's records: at 256, at a byte outside the table, and at 254 or 255 where an operand byte is missing. -/
theorem FetchRaises.legal {s : State} {k : FaultKind} {info : Word9} (h : FetchRaises s k info)
    (hpc : s.pc.toNat ≤ 256) : FaultRecord.legal ⟨k, s.pc, info⟩ := by
  refine ⟨hpc, ?_⟩
  cases h with
  | opcode hge =>
    exact ⟨by dsimp only; omega, BitVec.eq_of_toNat_eq (Nat.le_antisymm hpc hge)⟩
  | unsupported hle hb =>
    refine ⟨hle, ?_, fun o ho => hb o (zext9_injective ho)⟩
    rw [zext9_toNat]
    exact Nat.le_of_lt_succ (BitVec.isLt _)
  | @operand o _ _ hend =>
    have := o.operandCount_le_two
    exact ⟨by dsimp only; omega, rfl⟩

/-- An instruction with a register operand has two bytes at least. -/
theorem Instr.length_ge_two {i : Instr} {b : Byte} {rest : List Byte} (hi : i.regOperands = b :: rest) :
    2 ≤ i.length := by
  cases i with
  | hlt | ret => cases hi
  | _ => simp [Instr.length, Instr.operands]

/-- The records of an instruction's faults, given that the instruction stands in memory at PC. -/
theorem Raises.legal {s : State} {i : Instr} {k : FaultKind} {info : Word9} (hi : Stands s i)
    (h : Raises s.loadIr i k info) : FaultRecord.legal ⟨k, s.pc, info⟩ := by
  have hin := hi.inMemory
  have hpc := hi.pc_le
  have hbyte : ∀ b : Byte, b.toNat ≤ 255 := fun b => Nat.le_of_lt_succ b.isLt
  refine ⟨Nat.le_succ_of_le hpc, ?_⟩
  cases h with
  | firstReg hreg hb | secondReg hreg _ hb =>
    have := Instr.length_ge_two hreg
    exact ⟨by dsimp only; omega, by rwa [zext9_toNat], by rw [zext9_toNat]; exact hbyte _⟩
  | pushLow | callLow => exact ⟨Nat.le_of_add_le_add_right hin, rfl⟩
  | popHigh | retHigh => exact ⟨hpc, rfl⟩
  | returnAddress _ hlt =>
    rw [State.loadIr_pc] at hlt ⊢
    have h254 := hi.pc_eq_254 hlt
    exact ⟨h254, by rw [h254]; rfl⟩

/-! ### The step and the runs -/

/-- A legal state that is running has no fault. -/
theorem Inv.fault_of_running {s : State} (hs : Inv s) (hrun : s.run = .running) : s.fault = none := by
  by_contra hne
  cases hrun.symm.trans (hs.faultHalted hne)

theorem step_inv {s t : State} (hs : Inv s) (ht : step s = .next t) : Inv t := by
  obtain ⟨hrun, ⟨k, info, hf, rfl⟩ | ⟨i, hi, h | ⟨k, info, hk, rfl⟩⟩⟩ := step_cases ht
  · exact raise_inv hs (hf.legal hs.pcRange)
  · exact h.inv hs (hs.fault_of_running hrun) hi
  · exact raise_inv hs (hk.legal hi)

/-- Settles O45: the invariant is kept by every effect and by every fault that is raised. -/
theorem everyStepKeepsStatesLegal : Obligations.EveryStepKeepsStatesLegal := fun _ _ => step_inv

/-- Settles O1: the reset values, element by element. -/
theorem resetValuesOfEveryElement : Obligations.ResetValuesOfEveryElement := by
  have hreg : ∀ r : RegIx, State.reset.reg r = if r = 7 then 0xF4 else 0x00 := by decide
  exact ⟨fun _ => rfl, rfl, rfl, fun r hr => (hreg r).trans (if_neg hr), rfl, rfl, rfl, rfl, rfl⟩

/-- Settles O44: an empty memory, zeros and no fault. -/
theorem resetStateIsLegal : Obligations.ResetStateIsLegal where
  memWf := State.reset_mem_wf
  pcRange := Nat.zero_le _
  flLegal := .inl rfl
  faultHalted := fun hne => absurd rfl hne
  faultLegal := nofun

/-- The loader keeps a state legal, since it writes memory only. -/
theorem load_inv {s t : State} {image : List Byte} (hs : Inv s) (ht : s.load image = some t) : Inv t := by
  unfold State.load at ht
  split at ht
  · cases ht
    rw [State.placeBytes_eq]
    exact { hs with memWf := State.placeBytes_wf hs.memWf 0 image }
  · cases ht

theorem run_inv {s t : State} {n : Nat} (hs : Inv s) (ht : core.run n s = .next t) : Inv t := by
  induction n generalizing s with
  | zero => cases ht; exact hs
  | succ n ih =>
    obtain ⟨u, hu, ht⟩ := run_succ_next ht
    exact ih (step_inv hs hu) ht

/-- Settles O46: reset is legal, the loader and every step keep that. -/
theorem everyReachableStateIsLegal : Obligations.EveryReachableStateIsLegal :=
  fun _ _ hinit _ _ ht => run_inv (load_inv resetStateIsLegal hinit) ht

/-- Settles O38: a legal state with a fault is halted, and a halted state has no step. -/
theorem faultEndsTheRun : Obligations.FaultEndsTheRun := by
  intro s hs hne
  have hhalted := hs.faultHalted hne
  exact ⟨⟨hhalted, hne⟩, fun hfinal => hne hfinal.2, run_succ_halted hhalted⟩

/-- A halted state is final or faulted. -/
theorem isFinal_or_isFaulted_of_halted {s : State} (h : s.run = .halted) : s.isFinal ∨ s.isFaulted :=
  (Classical.em (s.fault = none)).imp (⟨h, ·⟩) (⟨h, ·⟩)

/-- A run answers a state, or it stopped at a halted state that a shorter run reached. -/
theorem run_next_or_halted (s : State) (n : Nat) : (∃ t, core.run n s = .next t) ∨
    (core.run n s = .fault .haltedHasNoStep ∧ ∃ k t, k < n ∧ core.run k s = .next t ∧ t.run = .halted) := by
  induction n generalizing s with
  | zero => exact .inl ⟨s, run_zero s⟩
  | succ n ih =>
    cases hr : s.run with
    | halted => exact .inr ⟨run_succ_halted hr n, 0, s, Nat.succ_pos n, run_zero s, hr⟩
    | running =>
      obtain ⟨u, hu⟩ := step_next_of_running hr
      rw [run_of_next hu]
      rcases ih u with ht | ⟨hf, k, t, hk, ht, hhalt⟩
      · exact .inl ht
      · exact .inr ⟨hf, k + 1, t, Nat.succ_lt_succ hk, (run_of_next hu k).trans ht, hhalt⟩

/-- Settles O47: a run that does not answer a state has stopped at a halted one. -/
theorem runsStopOnlyInAFinalOrFaultedState : Obligations.RunsStopOnlyInAFinalOrFaultedState := by
  intro s n
  rcases run_next_or_halted s n with ⟨t, ht⟩ | ⟨hf, k, t, hk, ht, hhalt⟩
  · rw [ht]
    exact ⟨nofun, nofun⟩
  · rw [hf]
    exact ⟨nofun, fun _ _ => ⟨k, t, hk, ht, isFinal_or_isFaulted_of_halted hhalt⟩⟩

end Sys2Proof.Machine
end

section
/-!
PROOF. What no step can see (spec/44_control.md R101, spec/10_state.md R25): a relation between states that a step cannot
tell apart, and the two instances, the flags G and L and the bytes already emitted.
-/

namespace Sys2Proof.Machine

section
variable {s s' : State}

/-! ### What a fault depends on -/

theorem Stands.congr {i : Instr} (h : Stands s i) (hpc : s'.pc = s.pc) (hmem : s'.mem = s.mem) : Stands s' i := by
  obtain ⟨hin, hbytes⟩ := h
  rw [← hpc] at hin hbytes
  rw [← hmem] at hbytes
  exact ⟨hin, hbytes⟩

theorem FetchRaises.congr {k : FaultKind} {info : Word9} (h : FetchRaises s k info) (hpc : s'.pc = s.pc)
    (hmem : s'.mem = s.mem) : FetchRaises s' k info := by
  cases h with
  | opcode hge =>
    rw [← hpc] at hge ⊢
    exact .opcode hge
  | unsupported hle hb =>
    rw [← hpc] at hle hb ⊢
    rw [← hmem] at hb ⊢
    exact .unsupported hle hb
  | operand hle ho hend =>
    rw [← hpc] at hle ho hend
    rw [← hmem] at ho
    exact .operand hle ho hend

theorem reg_congr (hregs : s'.regs = s.regs) (j : RegIx) : s'.reg j = s.reg j := congrArg (RegFile.get · j) hregs

theorem popPointer_congr (hregs : s'.regs = s.regs) (hmem : s'.mem = s.mem) (r : RegIx) :
    popPointer r s' = popPointer r s := by
  simp only [popPointer, State.loadByte, State.sp, reg_congr hregs, hmem]

theorem Raises.congr {i : Instr} {k : FaultKind} {info : Word9} (h : Raises s i k info) (hregs : s'.regs = s.regs)
    (hpc : s'.pc = s.pc) (hmem : s'.mem = s.mem) : Raises s' i k info := by
  have hsp := reg_congr hregs 7
  cases h with
  | firstReg hi hb => exact .firstReg hi hb
  | secondReg hi ha hb => exact .secondReg hi ha hb
  | returnAddress hb hlt =>
    rw [← hpc] at hlt ⊢
    exact .returnAddress hb hlt
  | pushLow hb h0 => exact .pushLow hb (hsp.trans h0)
  | callLow hb hle h0 => exact .callLow hb (by rwa [hpc]) (hsp.trans h0)
  | popHigh hr hp => exact .popHigh hr ((popPointer_congr hregs hmem _).trans hp)
  | retHigh hff => exact .retHigh (hsp.trans hff)

end

/-! ### Relations that a run keeps -/

/-- Related states agree on what is fetched and on what a fault depends on, and stay related whatever the step does. -/
structure Simulation (R : State → State → Prop) : Prop where
  run : ∀ {s s'}, R s s' → s'.run = s.run
  regs : ∀ {s s'}, R s s' → s'.regs = s.regs
  pc : ∀ {s s'}, R s s' → s'.pc = s.pc
  mem : ∀ {s s'}, R s s' → s'.mem = s.mem
  withIr : ∀ {s s'} (b : Byte), R s s' → R { s with ir := b } { s' with ir := b }
  raise : ∀ {s s'} (k : FaultKind) (info : Word9), R s s' → R (s.raise k info) (s'.raise k info)
  effect : ∀ {s s' t} {i : Instr}, R s s' → Effect s i t → ∃ t', Effect s' i t' ∧ R t t'

section
variable {R : State → State → Prop} (hR : Simulation R) {s s' t : State}
include hR

theorem Simulation.loadIr (h : R s s') : R s.loadIr s'.loadIr := by
  rcases Nat.lt_or_ge s.pc.toNat 256 with hpc | hpc
  · have hread : s'.mem.read s'.pc.toNat = s.mem.read s.pc.toNat := by rw [hR.pc h, hR.mem h]
    rw [s.loadIr_lt hpc, s'.loadIr_lt (by rwa [hR.pc h]), hread]
    exact hR.withIr _ h
  · rw [s.loadIr_ge hpc, s'.loadIr_ge (by rwa [hR.pc h])]
    exact h

theorem Simulation.step (h : R s s') (ht : step s = .next t) : ∃ t', step s' = .next t' ∧ R t t' := by
  obtain ⟨hrun, hcases⟩ := step_cases ht
  have hrun' : s'.run = .running := (hR.run h).trans hrun
  have hir := hR.loadIr h
  rcases hcases with ⟨k, info, hf, rfl⟩ | ⟨i, hi, he | ⟨k, info, hk, rfl⟩⟩
  · exact ⟨_, (hf.congr (hR.pc h) (hR.mem h)).step hrun', hR.raise k info hir⟩
  · obtain ⟨t', he', ht'⟩ := hR.effect hir he
    exact ⟨t', ((hi.congr (hR.pc h) (hR.mem h)).step hrun').trans he'.exec, ht'⟩
  · have hk' := hk.congr (hR.regs hir) (hR.pc hir) (hR.mem hir)
    exact ⟨_, ((hi.congr (hR.pc h) (hR.mem h)).step hrun').trans hk'.exec, hR.raise k info hir⟩

theorem Simulation.core_run {n : Nat} (h : R s s') (ht : core.run n s = .next t) :
    ∃ t', core.run n s' = .next t' ∧ R t t' := by
  induction n generalizing s s' with
  | zero =>
    cases ht
    exact ⟨s', rfl, h⟩
  | succ n ih =>
    obtain ⟨u, hu, ht⟩ := run_succ_next ht
    obtain ⟨u', hu', hrel⟩ := hR.step h hu
    rw [run_of_next hu']
    exact ih hrel ht

end

/-! ### G and L -/

/-- States that agree on all but bits 7:1 of FL are one state with FL rewritten, bit 0 kept. -/
theorem sameButGL_iff (s s' : State) : sameButGL s s' ↔ ∃ f, flagE f = flagE s.fl ∧ s' = { s with fl := f } := by
  constructor
  · rintro ⟨hregs, hpc, hfl, hir, hrun, hfault, hmem, hout⟩
    refine ⟨s'.fl, hfl, ?_⟩
    rw [← hregs, ← hpc, ← hir, ← hrun, ← hfault, ← hmem, ← hout]
  · rintro ⟨f, hf, rfl⟩
    exact ⟨rfl, rfl, hf, rfl, rfl, rfl, rfl, rfl⟩

/-- Only JEQ and JNE read FL, and they read bit 0; CMP forgets all of FL. -/
theorem Effect.withFl {s t : State} {i : Instr} {f : Byte} (hf : flagE f = flagE s.fl) (h : Effect s i t) :
    ∃ t', Effect { s with fl := f } i t' ∧ sameButGL t t' := by
  have hsame : ∀ g, flagE g = flagE t.fl → sameButGL t { t with fl := g } := fun g hg =>
    (sameButGL_iff _ _).2 ⟨g, hg, rfl⟩
  cases h with
  | hlt => exact ⟨_, .hlt, hsame f hf⟩
  | ldi hr => exact ⟨_, .ldi hr, hsame f hf⟩
  | prn hr => exact ⟨_, .prn hr, hsame f hf⟩
  | alu k hx hy =>
    refine ⟨_, .alu k hx hy, ?_⟩
    cases k with
    | cmp => exact hsame _ rfl
    | add | mul | and | or | xor => exact hsame f hf
  | push hr hsp => exact ⟨_, .push hr hsp, hsame f hf⟩
  | pop hr hp => exact ⟨_, .pop hr hp, hsame f hf⟩
  | call hr hpc hsp => exact ⟨_, .call hr hpc hsp, hsame f hf⟩
  | ret hsp => exact ⟨_, .ret hsp, hsame f hf⟩
  | jmp hr => exact ⟨_, .jmp hr, hsame f hf⟩
  | jeqTaken hr he => exact ⟨_, .jeqTaken hr (hf.trans he), hsame f hf⟩
  | jeqPassed hr he => exact ⟨_, .jeqPassed hr (hf.trans he), hsame f hf⟩
  | jneTaken hr he => exact ⟨_, .jneTaken hr (hf.trans he), hsame f hf⟩
  | jnePassed hr he => exact ⟨_, .jnePassed hr (hf.trans he), hsame f hf⟩

theorem simulation_sameButGL : Simulation sameButGL where
  run := fun ⟨_, _, _, _, hrun, _, _, _⟩ => hrun
  regs := fun ⟨hregs, _⟩ => hregs
  pc := fun ⟨_, hpc, _⟩ => hpc
  mem := fun ⟨_, _, _, _, _, _, hmem, _⟩ => hmem
  withIr := fun _ ⟨hregs, hpc, hfl, _, hrun, hfault, hmem, hout⟩ => ⟨hregs, hpc, hfl, rfl, hrun, hfault, hmem, hout⟩
  raise := fun k info ⟨hregs, hpc, hfl, hir, _, _, hmem, hout⟩ =>
    ⟨hregs, hpc, hfl, hir, rfl, by rw [State.raise_fault, State.raise_fault, hpc], hmem, hout⟩
  effect := fun h he => by
    obtain ⟨f, hf, rfl⟩ := (sameButGL_iff _ _).1 h
    exact he.withFl hf

/-- Settles O48: agreement on all but bits 7:1 of FL is kept by every step. -/
theorem greaterAndLessAreInvisible : Obligations.GreaterAndLessAreInvisible :=
  fun _ _ h _ _ ht => simulation_sameButGL.core_run h ht

/-! ### The output trace -/

/-- The state with bytes in front of OUT. -/
def State.prependOut (p : List Byte) (s : State) : State := { s with out := p ++ s.out }

/-- No instruction reads OUT, and PRN extends it at its end. -/
theorem Effect.prependOut {s t : State} {i : Instr} (p : List Byte) (h : Effect s i t) :
    Effect (s.prependOut p) i (t.prependOut p) := by
  cases h with
  | hlt => exact .hlt
  | ldi hr => exact .ldi hr
  | @prn _ r hr =>
    have hout : (s.prependOut p).emit (s.reg r) = (s.emit (s.reg r)).prependOut p := by
      simp only [State.prependOut, State.emit, List.append_assoc]
    have hprn : Effect (s.prependOut p) _ (((s.prependOut p).emit (s.reg r)).advance 2) := .prn hr
    rw [hout] at hprn
    exact hprn
  | alu k hx hy =>
    cases k with
    | add => exact .alu .add hx hy
    | mul => exact .alu .mul hx hy
    | cmp => exact .alu .cmp hx hy
    | and => exact .alu .and hx hy
    | or => exact .alu .or hx hy
    | xor => exact .alu .xor hx hy
  | push hr hsp => exact .push hr hsp
  | pop hr hp => exact .pop hr hp
  | call hr hpc hsp => exact .call hr hpc hsp
  | ret hsp => exact .ret hsp
  | jmp hr => exact .jmp hr
  | jeqTaken hr he => exact .jeqTaken hr he
  | jeqPassed hr he => exact .jeqPassed hr he
  | jneTaken hr he => exact .jneTaken hr he
  | jnePassed hr he => exact .jnePassed hr he

theorem simulation_prependOut (p : List Byte) : Simulation fun s s' => s' = s.prependOut p where
  run := fun h => h ▸ rfl
  regs := fun h => h ▸ rfl
  pc := fun h => h ▸ rfl
  mem := fun h => h ▸ rfl
  withIr := fun _ h => h ▸ rfl
  raise := fun _ _ h => h ▸ rfl
  effect := fun h he => ⟨_, h ▸ he.prependOut p, rfl⟩

/-- Settles O50: bytes in front of OUT stay there at every step. -/
theorem outputIsNeverReadBack : Obligations.OutputIsNeverReadBack := by
  intro s t p n ht
  obtain ⟨_, ht', rfl⟩ := (simulation_prependOut p).core_run rfl ht
  exact ht'

end Sys2Proof.Machine
end

section
/-!
PROOF. The fault of a step against the priority list of spec/60_exceptions.md R115: where the dispatcher raises a fault it
is the list's first, an effect meets none of the list's conditions, and an instruction's fault is the first one it meets.
-/

namespace Sys2Proof.Machine

/-- The operand bytes that the list reads from memory are the instruction's. -/
theorem Stands.read_operand {s : State} {i : Instr} (h : Stands s i) {k : Nat} (hk : k < i.operands.length) :
    s.mem.read (s.pc.toNat + (k + 1)) = i.operands.getD k 0x00 :=
  h.byteAt (k + 1) (by rw [Instr.length]; omega)

/-- The pointer that POP increments, in terms of its operand byte. -/
theorem popPointer_eq_ite {b : Byte} {r : RegIx} (hr : regIdx b = some r) (s : State) :
    popPointer r s = if b = 7 then s.mem.read (s.reg 7).toNat else s.reg 7 := by
  have hb : b = 7 ↔ r = 7 := by
    rw [← BitVec.toNat_inj, (regIdx_eq_some_iff b r).1 hr, Fin.ext_iff]
    rfl
  simp only [hb]
  rfl

theorem firstFault_of_fetchRaises {s : State} {k : FaultKind} {info : Word9} (h : FetchRaises s k info)
    (hpc : s.pc.toNat ≤ 256) : firstFault s = some (k, info) := by
  cases h with
  | opcode hge =>
    have h256 : s.pc = 256 := BitVec.eq_of_toNat_eq (Nat.le_antisymm hpc hge)
    rw [h256]
    exact if_pos (by rw [h256]; decide)
  | unsupported hle hb =>
    have hl : lookupOp opcodeTable (s.mem.read s.pc.toNat) = none := lookupOp_eq_none_iff.2 hb
    rw [lookupOp] at hl
    simp only [firstFault, hl, if_neg (Nat.not_lt.2 hle), gt_iff_lt]
  | @operand o hle ho hend =>
    have hl : lookupOp opcodeTable (opcodeTable o) = some o := lookupOp_opcodeTable o
    rw [lookupOp] at hl
    simp only [firstFault, ho, hl, nopsField_opcodeTable, if_neg (Nat.not_lt.2 hle), if_pos hend, gt_iff_lt]

/-! ### The list past the dispatcher, for an instruction -/

/-- The register operands are checked in order, and then `rest` counts (R115). -/
def regFault : List Byte → Option (FaultKind × Word9) → Option (FaultKind × Word9)
  | [], rest => rest
  | b :: l, rest => if 7 < b.toNat then some (.boundsRegister, zext9 b) else regFault l rest

/-- The return address and then the stack pointer, for the instructions that have them (R110 to R112). -/
def stackFault (s : State) : Instr → Option (FaultKind × Word9)
  | .push _ => if s.reg 7 = 0x00 then some (.boundsStackLow, 0x00) else none
  | .pop b =>
    if (if b = 7 then s.mem.read (s.reg 7).toNat else s.reg 7) = 0xFF then some (.boundsStackHigh, 0xFF) else none
  | .call _ =>
    if 255 < s.pc.toNat + 2 then some (.boundsReturnAddress, 256)
    else if s.reg 7 = 0x00 then some (.boundsStackLow, 0x00) else none
  | .ret => if s.reg 7 = 0xFF then some (.boundsStackHigh, 0xFF) else none
  | _ => none

/-- Where an instruction stands at PC the conditions left are its own. -/
theorem firstFault_of_stands {s : State} {i : Instr} (hi : Stands s i) :
    firstFault s = regFault i.regOperands (stackFault s i) := by
  have hl : Op.all.find? (fun o => opcodeTable o == opcodeTable i.op) = some i.op := lookupOp_opcodeTable i.op
  have hpc := Nat.not_lt.2 hi.pc_le
  have hend : ¬ 255 < s.pc.toNat + i.op.operandCount := by
    have := hi.inMemory
    have := i.length_eq
    omega
  have h1 : 0 < i.operands.length → s.mem.read (s.pc.toNat + 1) = i.operands.getD 0 0x00 := hi.read_operand
  have h2 : 1 < i.operands.length → s.mem.read (s.pc.toNat + 2) = i.operands.getD 1 0x00 := hi.read_operand
  simp only [firstFault, hi.opcode, hl, nopsField_opcodeTable, if_neg hpc, if_neg hend, gt_iff_lt]
  cases i <;> simp [Instr.op, Instr.operands, Instr.regOperands, regFault, stackFault, h1, h2]

theorem regFault_legal {l : List Byte} (hl : ∀ b ∈ l, b.toNat ≤ 7) (rest : Option (FaultKind × Word9)) :
    regFault l rest = rest := by
  induction l with
  | nil => rfl
  | cons b l ih =>
    rw [List.forall_mem_cons] at hl
    rw [regFault, if_neg (Nat.not_lt.2 hl.1), ih hl.2]

theorem regFault_singleton {b : Byte} (hb : b.toNat ≤ 7) (rest : Option (FaultKind × Word9)) :
    regFault [b] rest = rest := if_neg (Nat.not_lt.2 hb)

theorem Effect.regOperands_legal {s t : State} {i : Instr} (h : Effect s i t) : ∀ b ∈ i.regOperands, b.toNat ≤ 7 := by
  cases h with
  | hlt | ret => nofun
  | alu k hx hy =>
    rw [k.regOperands_instr, List.forall_mem_cons, List.forall_mem_singleton]
    exact ⟨toNat_le_of_regIdx hx, toNat_le_of_regIdx hy⟩
  | ldi hr | prn hr | push hr | pop hr | call hr | jmp hr | jeqTaken hr | jeqPassed hr | jneTaken hr | jnePassed hr =>
    exact List.forall_mem_singleton.2 (toNat_le_of_regIdx hr)

theorem Effect.stackFault_eq_none {s t : State} {i : Instr} (h : Effect s i t) : stackFault s i = none := by
  cases h with
  | push _ hsp => exact if_neg hsp
  | pop hr hp => exact if_neg (popPointer_eq_ite hr s ▸ hp)
  | call _ hpc hsp => exact (if_neg (by omega)).trans (if_neg hsp)
  | ret hsp => exact if_neg hsp
  | alu k => cases k <;> rfl
  | _ => rfl

theorem firstFault_of_effect {s t : State} {i : Instr} (hi : Stands s i) (h : Effect s i t) : firstFault s = none := by
  rw [firstFault_of_stands hi, regFault_legal h.regOperands_legal, h.stackFault_eq_none]

theorem firstFault_of_raises {s : State} {i : Instr} {k : FaultKind} {info : Word9} (hi : Stands s i)
    (h : Raises s i k info) : firstFault s = some (k, info) := by
  rw [firstFault_of_stands hi]
  cases h with
  | firstReg hreg hb =>
    rw [hreg]
    exact if_pos hb
  | secondReg hreg ha hb =>
    rw [hreg]
    exact (if_neg (Nat.not_lt.2 ha)).trans (if_pos hb)
  | returnAddress hb hlt =>
    refine (regFault_singleton hb _).trans ((if_pos (by omega)).trans ?_)
    rw [hi.pc_eq_254 hlt]
    rfl
  | pushLow hb hsp => exact (regFault_singleton hb _).trans (if_pos hsp)
  | callLow hb hpc hsp => exact (regFault_singleton hb _).trans ((if_neg (by omega)).trans (if_pos hsp))
  | popHigh hr hp =>
    rw [popPointer_eq_ite hr] at hp
    exact (regFault_singleton (toNat_le_of_regIdx hr) _).trans (if_pos hp)
  | retHigh hsp => exact if_pos hsp

/-- No condition of the list reads IR. -/
theorem firstFault_loadIr (s : State) : firstFault s.loadIr = firstFault s := by
  simp only [firstFault, State.loadIr_pc, State.loadIr_mem, State.loadIr_reg]

/-- Settles O36: the list's first condition is the one under which the fault was raised. -/
theorem faultIsTheFirstOfThePriorityList : Obligations.FaultIsTheFirstOfThePriorityList := by
  intro s t hs hpc ht
  obtain ⟨-, ⟨k, info, hf, rfl⟩ | ⟨i, hi, hcases⟩⟩ := step_cases ht
  · rw [firstFault_of_fetchRaises hf hpc, State.raise_fault, State.loadIr_pc]
    rfl
  · rw [← firstFault_loadIr]
    have hi' : Stands s.loadIr i := hi.congr s.loadIr_pc s.loadIr_mem
    rcases hcases with h | ⟨k, info, h, rfl⟩
    · rw [firstFault_of_effect hi' h, h.fault, State.loadIr_fault, hs]
      rfl
    · rw [firstFault_of_raises hi' h, State.raise_fault, State.loadIr_pc]
      rfl

end Sys2Proof.Machine
end

section
/-!
PROOF. Instructions executed one after another (spec/43_stack.md R94 and section 4, spec/44_control.md section 2), and a
store that the next fetch sees (spec/20_memory.md R42).
-/

namespace Sys2Proof.Machine

theorem execSeq_cons_next {i : Instr} {s t : State} (h : exec i s = .next t) (is : List Instr) :
    execSeq (i :: is) s = execSeq is t := by
  simp only [execSeq, h]

theorem execSeq_two {i j : Instr} {s t u : State} (hi : exec i s = .next t) (hj : exec j t = .next u) :
    execSeq [i, j] s = .next u := by
  rw [execSeq_cons_next hi, execSeq_cons_next hj, execSeq]

/-! ### Pairs -/

/-- One below the stack pointer there is an address that a pop can leave again. -/
theorem ne_ff_of_succ {a b : Byte} (h : a.toNat + 1 = b.toNat) : a ≠ 0xFF := by
  rintro rfl
  exact absurd b.isLt (Nat.not_lt.2 h.le)

/-- Settles O51: POP reads the byte that PUSH stored and undoes its decrement. -/
theorem pushThenPopCopiesTheRegister : Obligations.PushThenPopCopiesTheRegister := by
  intro s b c r q hb hc hr hq hwf hsp
  obtain ⟨t, a, ht, -, hsucc, hreg, hread, -⟩ := pushStoresBelowTheStackPointer s b r hb hwf hsp
  obtain ⟨hpop, -⟩ := popLoadsFromTheStackPointer t c q hc
  obtain ⟨u, hu, hq', h7, -⟩ := hpop hq (hreg ▸ ne_ff_of_succ hsucc)
  refine ⟨u, execSeq_two ht hu, ?_, BitVec.eq_of_toNat_eq ?_⟩
  · rw [hq', hreg, hread, if_neg hr]
  · rw [h7, hreg, hsucc]

/-- Settles O52: RET reads the return address that CALL stored and undoes its decrement. -/
theorem callThenRetReturns : Obligations.CallThenRetReturns := by
  intro s b hb hwf hpc hsp
  obtain ⟨r, -, hr⟩ := regIdx_legal hb
  obtain ⟨t, a, ht, -, hsucc, hreg, hread, -⟩ := callPushesItsReturnAddress s b r hr hwf hpc hsp
  obtain ⟨u, hu, hupc, h7, -⟩ := retPopsPc t (hreg ▸ ne_ff_of_succ hsucc)
  refine ⟨u, execSeq_two ht hu, BitVec.eq_of_toNat_eq ?_, BitVec.eq_of_toNat_eq ?_⟩
  · rw [hupc, hreg, hread]
    bv_omega
  · rw [h7, hreg, hsucc]

/-- Settles O53: PRN emits what LDI wrote. -/
theorem ldiThenPrnEmitsTheByte : Obligations.LdiThenPrnEmitsTheByte := by
  intro s b v hb
  obtain ⟨r, -, hr⟩ := regIdx_legal hb
  obtain ⟨t, ht, hreg, ⟨-, -, -, hout, -⟩, -⟩ := ldiLoadsItsImmediate s b v r hr
  obtain ⟨u, hu, huout, -⟩ := prnAppendsTheRegister t b r hr
  exact ⟨u, execSeq_two ht hu, by rw [huout, hout, hreg]⟩

/-- Bit 0 of FL after a compare is set exactly for equal values. -/
theorem flagE_compareFlags (va vb : Byte) : flagE (compareFlags va vb) = decide (va = vb) := by
  by_cases h : va = vb
  · rw [decide_eq_true h, compareFlags_eq (by rw [h])]
    rfl
  · have hne : va.toNat ≠ vb.toNat := fun hn => h (BitVec.eq_of_toNat_eq hn)
    rw [decide_eq_false h]
    rcases Nat.lt_or_gt_of_ne hne with hlt | hgt
    · rw [compareFlags_lt hlt]
      rfl
    · rw [compareFlags_gt hgt]
      rfl

/-- Settles O54: the jumps test the bit that CMP set for equal values. -/
theorem cmpDecidesTheConditionalJumps : Obligations.CmpDecidesTheConditionalJumps := by
  intro s a b c x y z ha hb hc
  have hcmp := (Effect.alu .cmp (s := s) (regIdx_of_toNat ha) (regIdx_of_toNat hb)).exec
  have hflag := flagE_compareFlags (s.reg x) (s.reg y)
  have hz := regIdx_of_toNat hc
  by_cases heq : s.reg x = s.reg y
  · rw [decide_eq_true heq] at hflag
    rw [if_pos heq, if_pos heq]
    exact ⟨⟨_, execSeq_two hcmp (Effect.jeqTaken hz hflag).exec, rfl⟩,
      ⟨_, execSeq_two hcmp (Effect.jnePassed hz hflag).exec, rfl⟩⟩
  · rw [decide_eq_false heq] at hflag
    rw [if_neg heq, if_neg heq]
    exact ⟨⟨_, execSeq_two hcmp (Effect.jeqPassed hz hflag).exec, rfl⟩,
      ⟨_, execSeq_two hcmp (Effect.jneTaken hz hflag).exec, rfl⟩⟩

/-! ### The depth of the stack -/

theorem execSeq_append_next {is js : List Instr} {s t : State} (h : execSeq is s = .next t) :
    execSeq (is ++ js) s = execSeq js t := by
  induction is generalizing s with
  | nil => cases h; rfl
  | cons i is ih =>
    obtain ⟨u, hu⟩ := exec_next i s
    rw [execSeq_cons_next hu] at h
    rw [List.cons_append, execSeq_cons_next hu, ih h]

/-- What one push leaves for the next: one less in the pointer, PC past it, FAULT as it was. -/
theorem exec_push_next {b : Byte} (hb : b.toNat ≤ 7) {s : State} (hsp : s.reg 7 ≠ 0x00) :
    ∃ t, exec (.push b) s = .next t ∧ (t.reg 7).toNat + 1 = (s.reg 7).toNat ∧ t.fault = s.fault ∧ t.pc = s.pc + 2 := by
  obtain ⟨r, hr, -⟩ := regIdx_legal hb
  refine ⟨_, (Effect.push hr hsp).exec, ?_, rfl, rfl⟩
  rw [State.advance_reg, State.storeByte_reg, State.setSp_reg_self, byte_pred_toNat hsp]

/-- As many pushes as the pointer allows: each takes one from the pointer, adds two to PC and leaves FAULT. -/
theorem execSeq_replicate_push {b : Byte} (hb : b.toNat ≤ 7) (n : Nat) (s : State) (hn : n ≤ (s.reg 7).toNat) :
    ∃ t, execSeq (List.replicate n (.push b)) s = .next t ∧ (t.reg 7).toNat = (s.reg 7).toNat - n ∧
      t.fault = s.fault ∧ t.pc = s.pc + BitVec.ofNat 9 (2 * n) := by
  induction n generalizing s with
  | zero => exact ⟨s, rfl, rfl, rfl, (BitVec.add_zero s.pc).symm⟩
  | succ n ih =>
    have hsp : s.reg 7 ≠ 0x00 := fun h => by
      rw [h] at hn
      exact absurd hn (Nat.not_succ_le_zero n)
    obtain ⟨u, hu, hu7, hufault, hupc⟩ := exec_push_next hb hsp
    obtain ⟨t, ht, h7, hfault, hpc⟩ := ih u (by omega)
    refine ⟨t, (execSeq_cons_next hu _).trans ht, by omega, hfault.trans hufault, ?_⟩
    rw [hpc, hupc]
    bv_omega

/-- Settles O55: after as many pushes as the pointer says the pointer is 0, and the next push faults. -/
theorem stackDepthIsTheStackPointer : Obligations.StackDepthIsTheStackPointer := by
  intro s b hb hs
  refine ⟨fun n hn => ?_, ?_⟩
  · obtain ⟨t, ht, h7, hfault, -⟩ := execSeq_replicate_push hb n s hn
    exact ⟨t, ht, h7, hfault.trans hs⟩
  · obtain ⟨t, ht, h7, -, hpc⟩ := execSeq_replicate_push hb _ s le_rfl
    rw [Nat.sub_self] at h7
    have hlow := (Raises.pushLow hb (BitVec.eq_of_toNat_eq h7)).exec
    refine ⟨t.raise .boundsStackLow 0x00, t.pc, ?_, rfl, fun hle => ?_⟩
    · rw [List.replicate_succ', execSeq_append_next ht, execSeq_cons_next hlow, execSeq]
    · rw [hpc]
      generalize (s.reg 7).toNat = n at hle
      bv_omega

/-! ### A store is seen by the next fetch -/

/-- A running core whose PC is the byte `a` fetches what memory holds at `a`. -/
theorem exists_step_ir {t : State} {a : Byte} (hrun : t.run = .running) (hpc : t.pc.toNat = a.toNat) :
    ∃ u, step t = .next u ∧ u.ir = t.mem.read a.toNat := by
  obtain ⟨u, hu⟩ := step_next_of_running hrun
  have hle : t.pc.toNat ≤ 255 := by omega
  exact ⟨u, hu, by rw [step_ir hu hle, hpc]⟩

/-- Settles O56: the step stores at the address `a`, and `a` is where PC is afterwards. -/
theorem storeIsSeenByTheNextFetch : Obligations.StoreIsSeenByTheNextFetch := by
  intro s rest a hrun hwf ha
  obtain ⟨hsp, rfl⟩ := (s.pushAddr_eq_some_iff a).1 ha
  have hwf' : s.loadIr.mem.wf = true := by rwa [State.loadIr_mem]
  have hsp' : s.loadIr.reg 7 ≠ 0x00 := by rwa [State.loadIr_reg]
  refine ⟨fun b r hb hd hnext => ?_, fun hpc hd => ?_⟩
  · obtain ⟨t, a, ht, haddr, -, -, hread, -, -, -, -, ⟨-, htrun, -⟩, htpc⟩ :=
      pushStoresBelowTheStackPointer s.loadIr b r hb hwf' hsp'
    rw [State.pushAddr_pos hsp', Option.some.injEq] at haddr
    subst haddr
    simp only [State.loadIr_reg, State.loadIr_run, State.loadIr_pc] at hread htrun htpc
    obtain ⟨u, hu, hir⟩ := exists_step_ir (a := s.reg 7 - 1) (htrun.trans hrun) (by rw [htpc]; bv_omega)
    exact ⟨t, u, ((stands_of_decode hd).step hrun).trans ht, hu, hir.trans hread⟩
  · obtain ⟨t, a, ht, haddr, -, -, hread, htpc, -, -, -, -, ⟨-, htrun, -⟩⟩ :=
      callPushesItsReturnAddress s.loadIr 7 7 rfl hwf' (by rwa [State.loadIr_pc]) hsp'
    simp only [State.loadIr_run, State.loadIr_pc] at hread htrun
    obtain ⟨u, hu, hir⟩ := exists_step_ir (htrun.trans hrun) htpc
    exact ⟨t, u, ((stands_of_decode hd).step hrun).trans ht, hu, (congrArg BitVec.toNat hir).trans hread⟩

end Sys2Proof.Machine
end

section
/-!
PROOF. The fault signals (spec/10_state.md R28, spec/60_exceptions.md R106).
-/

namespace Sys2Proof.Machine

/-- Zero is the code of no kind. -/
theorem FaultKind.code_ne_zero (k : FaultKind) : k.code ≠ 0 := by cases k <;> decide

/-- The kinds in the order of the table of R106. -/
def FaultKind.all : List FaultKind :=
  [.unsupportedInstruction, .boundsFetch, .boundsRegister, .boundsStackLow, .boundsStackHigh, .boundsReturnAddress,
    .aluFault]

theorem FaultKind.mem_all (k : FaultKind) : k ∈ FaultKind.all := by cases k <;> decide

theorem FaultKind.map_code_all : FaultKind.all.map FaultKind.code = [1, 2, 3, 4, 5, 6, 7] := rfl

/-- The codes of the table are pairwise different. -/
theorem FaultKind.code_injective : Function.Injective FaultKind.code := fun k k' h =>
  List.inj_on_of_nodup_map (by rw [FaultKind.map_code_all]; decide) k.mem_all k'.mem_all h

/-- Settles O57: the pins show the record where there is one, and the codes are those of the table. -/
theorem faultSignalsShowTheRecord : Obligations.FaultSignalsShowTheRecord := by
  refine ⟨fun s => ?_, fun _ _ h => FaultKind.code_injective h, FaultKind.map_code_all⟩
  unfold State.faultValidPin State.faultKindPin State.faultPins
  cases s.fault with
  | none => exact ⟨iff_of_false nofun fun h => h rfl, iff_of_true rfl rfl, nofun⟩
  | some f =>
    refine ⟨iff_of_true rfl nofun, iff_of_false f.kind.code_ne_zero nofun, fun g hg => ?_⟩
    cases hg
    exact ⟨rfl, rfl⟩

end Sys2Proof.Machine
end
